-- ==== Sys2Proof/Word.lean ====
section
/-! DEFINITION. The word types of the HivekVM core (spec R4, R5, R6). -/

namespace Sys2Proof

/-- One byte of memory (R40). -/
abbrev Byte := BitVec 8

/-- The 32-bit instruction word `W` (R70). -/
abbrev Word := BitVec 32

/-- A register value, an address or an instruction-pointer value: a 64-bit pattern (R6). -/
abbrev Dword := BitVec 64

/-- A 5-bit register field, which is the register's index (R20). -/
abbrev RegIdx := BitVec 5

/-- A 6-bit opcode field `op = W[28:23]` (R72 to R75). -/
abbrev Op := BitVec 6

end Sys2Proof
end

