-- ==== Sys2Proof/Config.lean ====
section
/-! DEFINITION. The parameters a launch fixes (spec R4), as plain data.

The machine's state carries a `Config` and no step changes it, so whatever is stated for every state is stated for
every value of the open parameters (`notes/assumptions/1.md`). `IMAGE` is not here: it is the argument of the load
(R211). The parameters R4 calls fixed or decided are constants of `Sys2Proof/Machine/Ops.lean`. -/

namespace Sys2Proof

/-- `OPMAP24`: the opcode values of family F24 (R77). -/
structure OpMap24 where
  add : Op
  sub : Op
  and : Op
  or : Op
  xor : Op
deriving DecidableEq, Repr

/-- `OPMAP32`: the opcode values of family F32 (R78); JAL has two. -/
structure OpMap32 where
  addi : Op
  andi : Op
  ori : Op
  xori : Op
  ld : Op
  sd : Op
  beq : Op
  bne : Op
  blt : Op
  jr : Op
  halt : Op
  syscall : Op
  jalA : Op
  jalB : Op
deriving DecidableEq, Repr

/-- The two opcode maps, which are independent of each other (R78). -/
structure OpMap where
  f24 : OpMap24
  f32 : OpMap32
deriving DecidableEq, Repr

/-- The parameters a launch fixes (R4). -/
structure Config where
  /-- `OPMAP24` and `OPMAP32`. -/
  ops : OpMap
  /-- `PROG_BASE`: the address of the first byte of the program region. -/
  progBase : Dword
  /-- `STACK_BASE`: the address of the first byte of the stack region. -/
  stackBase : Dword
  /-- `STACK_SIZE`: the bytes in the stack region. -/
  stackSize : Nat
  /-- `SP_INIT`: the reset value of register 29. -/
  spInit : Dword
  /-- `REG_INIT`: the reset values of registers 1 to 31 in order; the one at register 29 is not used (R33). -/
  regInit : Vector Dword 31
deriving DecidableEq, Repr

end Sys2Proof
end

