-- ==== Sys2Proof/Syntax.lean ====
section
/-! DEFINITION. The decoded instructions (spec R83): one constructor per instruction, 18 in all.

Register fields are 5 bits and every value names a register (R20); `imm13` and `imm23` are the raw immediate fields of
the word (R76), sign-extended where an instruction uses them. JAL is one instruction with two opcode values (R78), so
its constructor carries which of the two the word held. -/

namespace Sys2Proof

/-- Which of JAL's two opcode values a word holds (R78); both mean the same instruction. -/
inductive JalForm where
  | a
  | b
deriving DecidableEq, Repr

/-- The instruction set of R77 and R78. -/
inductive Instr where
  | add (ra rb rc : RegIdx)
  | sub (ra rb rc : RegIdx)
  | and (ra rb rc : RegIdx)
  | or (ra rb rc : RegIdx)
  | xor (ra rb rc : RegIdx)
  | addi (ra rb : RegIdx) (imm13 : BitVec 13)
  | andi (ra rb : RegIdx) (imm13 : BitVec 13)
  | ori (ra rb : RegIdx) (imm13 : BitVec 13)
  | xori (ra rb : RegIdx) (imm13 : BitVec 13)
  | ld (ra rb : RegIdx) (imm13 : BitVec 13)
  | sd (ra rb : RegIdx) (imm13 : BitVec 13)
  | beq (ra rb : RegIdx) (imm13 : BitVec 13)
  | bne (ra rb : RegIdx) (imm13 : BitVec 13)
  | blt (ra rb : RegIdx) (imm13 : BitVec 13)
  | jr
  | halt
  | syscall
  | jal (form : JalForm) (imm23 : BitVec 23)
deriving DecidableEq, Repr

end Sys2Proof
end

