-- ==== Sys2Proof/WellFormed.lean ====
section
/-! DEFINITION. What a launch's parameters must satisfy (spec R4, R41, R77, R78).

An `Instr` needs no check: every value of its fields is a legal operand (R197: "every register field value is legal,
every immediate value is legal"), and the field types hold no others. What can be ill formed is the configuration, and
each requirement is a check of its own. -/

namespace Sys2Proof

/-- The five opcode values of F24. -/
def OpMap24.values (m : OpMap24) : List Op := [m.add, m.sub, m.and, m.or, m.xor]

/-- The fourteen opcode values of F32. -/
def OpMap32.values (m : OpMap32) : List Op :=
  [m.addi, m.andi, m.ori, m.xori, m.ld, m.sd, m.beq, m.bne, m.blt, m.jr, m.halt, m.syscall, m.jalA, m.jalB]

/-- "the five values are pairwise distinct" (R77); that each is in 0 to 63 is the width of `Op`. -/
abbrev OpMap24.injective (m : OpMap24) : Prop := m.values.Nodup

/-- "the fourteen values are pairwise distinct" (R78). -/
abbrev OpMap32.injective (m : OpMap32) : Prop := m.values.Nodup

/-- Both opcode maps are injective. -/
abbrev OpMap.wf (m : OpMap) : Prop := m.f24.injective ∧ m.f32.injective

/-- "`PROG_BASE` and `STACK_BASE` are multiples of 8" (R41). -/
abbrev Config.basesAligned (c : Config) : Prop := c.progBase.toNat % 8 = 0 ∧ c.stackBase.toNat % 8 = 0

/-- "`STACK_SIZE >= 8` and a multiple of 8" (R41). -/
abbrev Config.stackSized (c : Config) : Prop := 8 ≤ c.stackSize ∧ c.stackSize % 8 = 0

/-- "`STACK_BASE + STACK_SIZE <= 2^64 - 8`" (R41). -/
abbrev Config.stackBelowTop (c : Config) : Prop := c.stackBase.toNat + c.stackSize ≤ 2 ^ 64 - 8

/-- What R4 and R41 require of the parameters before an image is known. -/
abbrev Config.wf (c : Config) : Prop := c.ops.wf ∧ c.basesAligned ∧ c.stackSized ∧ c.stackBelowTop

/-- The two address ranges do not overlap; they may be adjacent (R41). -/
abbrev Config.disjoint (c : Config) (progSize : Nat) : Prop :=
  c.progBase.toNat + progSize ≤ c.stackBase.toNat ∨ c.stackBase.toNat + c.stackSize ≤ c.progBase.toNat

/-- What R41 requires of an image's length: `PROG_SIZE >= 1`, `PROG_BASE + PROG_SIZE <= 2^64 - 8`, no overlap. -/
abbrev Config.fits (c : Config) (progSize : Nat) : Prop :=
  1 ≤ progSize ∧ c.progBase.toNat + progSize ≤ 2 ^ 64 - 8 ∧ c.disjoint progSize

end Sys2Proof
end

