-- ==== Sys2Proof/Decode.lean ====
section
/-! DEFINITION. Decoding a word and building one (spec R70 to R84, R102 to R104).

Both take the opcode maps as an argument: R77 and R78 give default numbers and let a model rely on no more than their
being injective. -/

namespace Sys2Proof

/-- The default F24 map (R77). -/
def OpMap24.default : OpMap24 := { add := 0, sub := 1, and := 2, or := 3, xor := 4 }

/-- The default F32 map (R78). -/
def OpMap32.default : OpMap32 :=
  { addi := 0, andi := 1, ori := 2, xori := 3, ld := 4, sd := 5, beq := 6, bne := 7, blt := 8,
    jr := 9, halt := 10, syscall := 11, jalA := 62, jalB := 63 }

/-- The default opcode maps (R77, R78; `notes/assumptions/14.md`). -/
def OpMap.default : OpMap := { f24 := OpMap24.default, f32 := OpMap32.default }

/-- The parameters `State.reset` takes: the example values of `95_test_vectors.md` for the bases and the stack size,
zeros for `REG_INIT` (`notes/assumptions/2.md` and `3.md`, DESIGN CHOICE); `SP_INIT` is `STACK_BASE + STACK_SIZE`
(R33). -/
def Config.default : Config where
  ops := OpMap.default
  progBase := 0x1000
  stackBase := 0x8000
  stackSize := 0x1000
  spInit := 0x9000
  regInit := Vector.replicate 31 0

/-! ### Fields of the word (R72 to R76) -/

/-- `W[31:29]`, which selects the family (R71). -/
def famField (w : Word) : BitVec 3 := w.extractLsb' 29 3

/-- `op = W[28:23]`. -/
def opField (w : Word) : Op := w.extractLsb' 23 6

/-- `ra = W[22:18]`. -/
def raField (w : Word) : RegIdx := w.extractLsb' 18 5

/-- `rb = W[17:13]`. -/
def rbField (w : Word) : RegIdx := w.extractLsb' 13 5

/-- `rc = W[12:8]`, of F24 only. -/
def rcField (w : Word) : RegIdx := w.extractLsb' 8 5

/-- `imm13 = W[12:0]`. -/
def imm13Field (w : Word) : BitVec 13 := w.extractLsb' 0 13

/-- `imm23 = W[22:0]`. -/
def imm23Field (w : Word) : BitVec 23 := w.extractLsb' 0 23

/-! ### The format classifier (R71, R102) -/

/-- The three families. -/
inductive Family where
  | f16
  | f24
  | f32
deriving DecidableEq, Repr

/-- R71's table: `110` is F24, `111` is F32, the other six values are F16. -/
def classify (w : Word) : Family :=
  if famField w = 0b110#3 then .f24 else if famField w = 0b111#3 then .f32 else .f16

/-! ### Opcode dispatch (R103, R104) -/

/-- What a 32-bit word decodes to: "`instruction | DecodeError | UnknownOpcode`" (R83). -/
inductive Decoded where
  | instr (i : Instr)
  | decodeError
  | unknownOpcode
deriving DecidableEq, Repr

/-- Dispatch in family F24 (R103). -/
def dispatch24 (m : OpMap24) (w : Word) : Decoded :=
  let op := opField w
  let ra := raField w
  let rb := rbField w
  let rc := rcField w
  if op = m.add then .instr (.add ra rb rc)
  else if op = m.sub then .instr (.sub ra rb rc)
  else if op = m.and then .instr (.and ra rb rc)
  else if op = m.or then .instr (.or ra rb rc)
  else if op = m.xor then .instr (.xor ra rb rc)
  else .unknownOpcode

/-- Dispatch in family F32, JAL's two values first (R79, R104). -/
def dispatch32 (m : OpMap32) (w : Word) : Decoded :=
  let op := opField w
  let ra := raField w
  let rb := rbField w
  let imm := imm13Field w
  if op = m.jalA then .instr (.jal .a (imm23Field w))
  else if op = m.jalB then .instr (.jal .b (imm23Field w))
  else if op = m.addi then .instr (.addi ra rb imm)
  else if op = m.andi then .instr (.andi ra rb imm)
  else if op = m.ori then .instr (.ori ra rb imm)
  else if op = m.xori then .instr (.xori ra rb imm)
  else if op = m.ld then .instr (.ld ra rb imm)
  else if op = m.sd then .instr (.sd ra rb imm)
  else if op = m.beq then .instr (.beq ra rb imm)
  else if op = m.bne then .instr (.bne ra rb imm)
  else if op = m.blt then .instr (.blt ra rb imm)
  else if op = m.jr then .instr .jr
  else if op = m.halt then .instr .halt
  else if op = m.syscall then .instr .syscall
  else .unknownOpcode

/-- Steps 2 and 3 of the cycle (R100): classify, then dispatch. F16 is reserved (R80). -/
def decodeWord (m : OpMap) (w : Word) : Decoded :=
  match classify w with
  | .f16 => .decodeError
  | .f24 => dispatch24 m.f24 w
  | .f32 => dispatch32 m.f32 w

/-! ### Decoding from bytes -/

/-- What a byte string decodes to: its first word and the rest, or too few bytes for a word. -/
inductive BytesDecoded where
  | word (d : Decoded) (rest : List Byte)
  | truncated
deriving DecidableEq, Repr

/-- Bits 31:24 of the word come from the first byte (R70). -/
def wordOfBytes (b0 b1 b2 b3 : Byte) : Word := b0 ++ b1 ++ b2 ++ b3

/-- The four bytes of a word as they stand in memory, the first at the lowest address (R70, R84). -/
def wordBytes (w : Word) : List Byte :=
  [w.extractLsb' 24 8, w.extractLsb' 16 8, w.extractLsb' 8 8, w.extractLsb' 0 8]

/-- Decode the instruction at the head of a byte string. -/
def decodeBytes (m : OpMap) : List Byte → BytesDecoded
  | b0 :: b1 :: b2 :: b3 :: rest => .word (decodeWord m (wordOfBytes b0 b1 b2 b3)) rest
  | _ => .truncated

/-! ### The encoding functions (R84) -/

/-- `enc_F24(op, rc, ra, rb)`. -/
def encF24 (op : Op) (rc ra rb : RegIdx) : Word := 0b110#3 ++ op ++ ra ++ rb ++ rc ++ 0#8

/-- `enc_F32I(op, rb, ra, i)`. -/
def encF32I (op : Op) (rb ra : RegIdx) (imm13 : BitVec 13) : Word := 0b111#3 ++ op ++ ra ++ rb ++ imm13

/-- `enc_F32J(op, d)`. -/
def encF32J (op : Op) (imm23 : BitVec 23) : Word := 0b111#3 ++ op ++ imm23

/-- `enc_F32C(op)`. -/
def encF32C (op : Op) : Word := 0b111#3 ++ op ++ 0#23

/-- The opcode value of JAL a form stands for (R78). -/
def OpMap32.jal (m : OpMap32) : JalForm → Op
  | .a => m.jalA
  | .b => m.jalB

/-- The word of an instruction, its ignored bits 0 (R72, R75). -/
def encode (m : OpMap) : Instr → Word
  | .add ra rb rc => encF24 m.f24.add rc ra rb
  | .sub ra rb rc => encF24 m.f24.sub rc ra rb
  | .and ra rb rc => encF24 m.f24.and rc ra rb
  | .or ra rb rc => encF24 m.f24.or rc ra rb
  | .xor ra rb rc => encF24 m.f24.xor rc ra rb
  | .addi ra rb imm => encF32I m.f32.addi rb ra imm
  | .andi ra rb imm => encF32I m.f32.andi rb ra imm
  | .ori ra rb imm => encF32I m.f32.ori rb ra imm
  | .xori ra rb imm => encF32I m.f32.xori rb ra imm
  | .ld ra rb imm => encF32I m.f32.ld rb ra imm
  | .sd ra rb imm => encF32I m.f32.sd rb ra imm
  | .beq ra rb imm => encF32I m.f32.beq rb ra imm
  | .bne ra rb imm => encF32I m.f32.bne rb ra imm
  | .blt ra rb imm => encF32I m.f32.blt rb ra imm
  | .jr => encF32C m.f32.jr
  | .halt => encF32C m.f32.halt
  | .syscall => encF32C m.f32.syscall
  | .jal form imm => encF32J (m.f32.jal form) imm

/-- The bytes of an instruction as a producer must emit them: "big-endian words" (R84). -/
def encodeBytes (m : OpMap) (i : Instr) : List Byte := wordBytes (encode m i)

/-- The 32-bit word of an opcode-table row: its low `nbits` bits, the others 0. -/
def tableWord (nbits w : Nat) : Word := BitVec.ofNat 32 (w % 2 ^ nbits)

/-- The instruction read from a table row's bits under the default maps, through the bytes as memory holds them. -/
def decodeTableWord (nbits w : Nat) : Option Instr :=
  match decodeBytes OpMap.default (wordBytes (tableWord nbits w)) with
  | .word (.instr i) _ => some i
  | _ => none

end Sys2Proof
end

