-- ==== Sys2Proof/Machine/State.lean ====
section
/-! DEFINITION. The state of the core (spec `10_state.md`), what can stop a step, construction and reset. -/

namespace Sys2Proof.Machine

/-- The three kinds of access (R40, R42). -/
inductive AccessKind where
  | fetch
  | load
  | store
deriving DecidableEq, Repr

/-- The four fault causes with what each records (R180). -/
inductive FaultCause where
  /-- `pc` is not a multiple of 4; records `pc` (R184). -/
  | misalignedFetch (pc : Dword)
  /-- An access outside the regions, or a store outside the stack; records its kind and address (R183). -/
  | memoryFault (kind : AccessKind) (addr : Dword)
  /-- A word of the 16-bit-class family; records the word (R181). -/
  | decodeError (w : Word)
  /-- An unmapped opcode; records the word (R182). -/
  | unknownOpcode (w : Word)
deriving DecidableEq, Repr

/-- The run status (R29), and before it the time between construction and load, in which "the engine cannot run"
(R210; `notes/assumptions/4.md`, DEDUCED). -/
inductive RunStatus where
  | notLoaded
  | running
  | paused
  | faulted (cause : FaultCause)
deriving DecidableEq, Repr

/-- The events the host delivers to the core (R9). -/
inductive HostEvent where
  /-- Load, with the bytes of the program file (R211). -/
  | load (image : List Byte)
  /-- Resume, with the value the core ignores (R166). -/
  | resume (value : Dword)
deriving DecidableEq, Repr

/-- Memory: the bytes that are not `unlistedByte`, by rising address. Both regions are in it. -/
abbrev Memory := List Host.Cell

/-- What an address that is not listed reads as: the stack region is pre-zeroed (R33), and a zero byte of the image is
not listed either (`notes/assumptions/6.md`). -/
def unlistedByte : Byte := 0

/-- The canonical form of a memory: addresses strictly rising, no entry equal to `unlistedByte`. -/
abbrev Memory.wf (m : Memory) : Prop :=
  m.Pairwise (fun c d => c.1 < d.1) ∧ ∀ c ∈ m, c.2 ≠ unlistedByte

/-- The whole state of the core (R20 to R35), the launch parameters, and the model's two lists for what passes the
core's boundary (`console`, `inputs`). -/
structure State where
  /-- The launch parameters (R4); no step changes them. -/
  cfg : Config
  /-- `x[1]` to `x[31]` in order; `x[0]` is hard-wired and needs no storage (R21). -/
  regs : Vector Dword 31
  /-- The instruction pointer (R24). -/
  pc : Dword
  /-- `PROG_SIZE` (R41); 0 while there is no program region (R210). -/
  progSize : Nat
  /-- The bytes of the program and stack regions (R31). -/
  mem : Memory
  /-- The run status (R29). -/
  status : RunStatus
  /-- THE MODEL'S OWN: the values emitted so far, oldest first (R9, R167; `notes/assumptions/10.md`). -/
  console : List Dword
  /-- THE MODEL'S OWN: the events the host delivers, in order, each when the engine waits for one
  (R9, R166, R211; `notes/assumptions/9.md`). -/
  inputs : List HostEvent
deriving DecidableEq, Repr

/-- Why a step stops the machine with a fault. -/
inductive Fault where
  /-- Raised by `step` in a `Faulted` state: the engine "takes no step" there (R198). Safe: the machine goes on
  nowhere in the spec either. -/
  | terminated (cause : FaultCause)
deriving DecidableEq, Repr

/-- Why the model gives no meaning. -/
inductive Refusal where
  /-- Would be raised by an arm of `exec` whose instruction had no meaning yet; no arm does. Safe. -/
  | notModelled (mnemonic : String)
  /-- Raised by a load event at an engine that has a program: "This spec models one load per launch" (R215). Safe:
  a reload is the new launch of `State.reload`. -/
  | secondLoad
  /-- Raised by a reload of a faulted engine: "A faulted engine is recovered only by a new construction and load"
  (R210), which is `State.launch`. Safe. -/
  | reloadOfFaulted
  /-- Raised by a load of no bytes: "a zero-length image is refused" (R212). Safe. -/
  | emptyImage
  /-- Raised by a load of an image that breaks the constraints of R41 on `PROG_SIZE`. Safe. -/
  | imageDoesNotFit
deriving DecidableEq, Repr

/-- What a step or a meaning answers. -/
abbrev Result := Host.Outcome State Fault Refusal

/-- What the diagnostic printer can read (R34): the instruction pointer, all 32 registers, the stack's bytes from its
base up. -/
structure Snapshot where
  pc : Dword
  regs : List Dword
  stack : List Byte
deriving DecidableEq, Repr

/-- Construction (R210, item 1): the register file with `x[29]` at the top of the stack, a zero stack region, no
program region; the engine cannot run yet. `pc` stands at `PROG_BASE`, where the load puts it
(`notes/assumptions/5.md`, DESIGN CHOICE). -/
def State.construct (c : Config) : State where
  cfg := c
  regs := c.regInit.set 28 c.spInit
  pc := c.progBase
  progSize := 0
  mem := []
  status := .notLoaded
  console := []
  inputs := []

/-- The machine right after reset, with no program loaded yet (R210, item 1; `notes/assumptions/4.md`). -/
def State.reset : State := State.construct Config.default

end Sys2Proof.Machine
end

