-- ==== Sys2Proof/Machine/Operands.lean ====
section
/-! DEFINITION. Operand forms (spec R20, R21, R76, R140, R150): the register file's one reader and one writer, the two
immediates, the one addressing mode, the one relative target. -/

namespace Sys2Proof.Machine

/-! ### The register file (R20, R21) -/

/-- The place of `x[r]` among the 31 stored registers. -/
def regSlot (r : RegIdx) : Fin 31 := ⟨r.toNat - 1, by have := r.isLt; omega⟩

/-- `x[r]`: "`read(0)` always yields 0" (R21). -/
def State.reg (s : State) (r : RegIdx) : Dword := if r = 0 then 0 else s.regs[regSlot r]

/-- `x[r] <- v`: "`write(0, _)` is a no-op" (R21). -/
def State.setReg (s : State) (r : RegIdx) (v : Dword) : State :=
  if r = 0 then s else { s with regs := s.regs.set (regSlot r) v }

/-- `LINK_REG`, the register JAL writes and JR reads (R4, R22). -/
def linkReg : RegIdx := 31

/-- `SP_REG`, the register that receives `SP_INIT` at reset (R4, R22). -/
def spReg : RegIdx := 29

/-- `SYSCALL_REG`, the register whose value SYSCALL emits (R4, R22). -/
def syscallReg : RegIdx := 1

/-! ### Immediates (R76) -/

/-- `sext_13(imm13)`. -/
def sext13 (imm : BitVec 13) : Dword := imm.signExtend 64

/-- `sext_23(imm23)`. -/
def sext23 (imm : BitVec 23) : Dword := imm.signExtend 64

/-! ### Addresses -/

/-- The effective address of LD and SD: base plus sign-extended displacement, modulo 2^64 (R140). -/
def State.effAddr (s : State) (ra : RegIdx) (imm : BitVec 13) : Dword := s.reg ra + sext13 imm

/-- The target of a taken branch: a byte displacement from the branch's own address, modulo 2^64 (R150). -/
def State.branchTarget (s : State) (imm : BitVec 13) : Dword := s.pc + sext13 imm

/-- The target of JAL: a byte displacement from its own address, modulo 2^64 (R154). -/
def State.jalTarget (s : State) (imm : BitVec 23) : Dword := s.pc + sext23 imm

end Sys2Proof.Machine
end

