-- ==== Sys2Proof/Machine/Flags.lean ====
section
/-! DEFINITION. The machine has no flags: "There are no flags, condition codes or predicate registers" (spec R28). What
stands in their place is the comparison each branch makes of its two registers (R150), and those are here. -/

namespace Sys2Proof.Machine

/-- BEQ is taken when the two 64-bit patterns are equal (R151). -/
def condEq (a b : Dword) : Bool := a == b

/-- BNE is taken when the two 64-bit patterns differ (R152). -/
def condNe (a b : Dword) : Bool := a != b

/-- BLT is taken when `signed(x[rb]) < signed(x[ra])`: `a` is `x[ra]`, `b` is `x[rb]`, and `rb` is on the left
(R153). -/
def condLt (a b : Dword) : Bool := b.slt a

end Sys2Proof.Machine
end

