-- ==== Sys2Proof/Machine/Ops.lean ====
section
/-! DEFINITION. The named operations every instruction is written over (spec R7): memory, the instruction pointer,
`raise`, `pause`, `emit`, fetch, and the host's events. -/

namespace Sys2Proof.Machine

/-! ### Constants R4 calls fixed or decided -/

/-- `STEP24`: the bytes `pc` advances after an F24 instruction (R81, R105). -/
def step24 : Dword := 4

/-- `STEP32`: the bytes `pc` advances after an F32 instruction that falls through (R105). -/
def step32 : Dword := 4

/-- `FETCH_BYTES`: the bytes one fetch reads (R49, R101). -/
def fetchBytes : Nat := 4

/-- `FETCH_ALIGN`: the alignment a fetch requires of `pc` (R47). -/
def fetchAlign : Nat := 4

/-! ### Bytes of memory (R40, R43, R44) -/

/-- `B(a)`: the byte at address `a`. -/
def Memory.byteAt : Memory → Nat → Byte
  | [], _ => unlistedByte
  | (k, b) :: rest, a => if k = a then b else Memory.byteAt rest a

/-- Put a cell into a memory before the first cell of a higher address. -/
def Memory.insert (c : Host.Cell) : Memory → Memory
  | [] => [c]
  | d :: rest => if c.1 < d.1 then c :: d :: rest else d :: Memory.insert c rest

/-- `B(a) <- b`, keeping the canonical form: whatever was listed at `a` goes, and `b` is listed unless an unlisted
address reads as `b` anyway. -/
def Memory.setByte (m : Memory) (a : Nat) (b : Byte) : Memory :=
  let others := m.filter (fun c => c.1 ≠ a)
  if b = unlistedByte then others else Memory.insert (a, b) others

/-- `MemRead(a, n)` (R43): the byte at the lowest address is the most significant. -/
def Memory.read (m : Memory) (a : Nat) : (n : Nat) → BitVec (8 * n)
  | 0 => 0#0
  | n + 1 => Memory.read m a n ++ m.byteAt (a + n)

/-- `MemWrite(a, n, v)` (R44): the most significant byte goes to the lowest address. -/
def Memory.write (m : Memory) (a : Nat) : (n : Nat) → BitVec (8 * n) → Memory
  | 0, _ => m
  | n + 1, v => (Memory.write m a n (v.extractLsb' 8 (8 * n))).setByte (a + n) (v.extractLsb' 0 8)

/-- The bytes of a list at `a`, `a + 1`, and so on: the loader's copy (R211). -/
def Memory.writeList (m : Memory) (a : Nat) : List Byte → Memory
  | [] => m
  | b :: bs => Memory.writeList (m.setByte a b) (a + 1) bs

/-- The byte of the machine's memory at an address. -/
def State.byteAt (s : State) (a : Nat) : Byte := s.mem.byteAt a

/-! ### Validity of an access (R41, R42) -/

/-- All of `addr .. addr + n - 1` lies in the region of `size` bytes at `base`, the sums as unbounded integers. -/
def inRegion (base size addr n : Nat) : Bool := base ≤ addr && addr + n ≤ base + size

/-- The `n` bytes at `addr` are in the program region. -/
def State.inProg (s : State) (addr n : Nat) : Bool := inRegion s.cfg.progBase.toNat s.progSize addr n

/-- The `n` bytes at `addr` are in the stack region. -/
def State.inStack (s : State) (addr n : Nat) : Bool := inRegion s.cfg.stackBase.toNat s.cfg.stackSize addr n

/-- `Valid(addr, n, kind)`: the bytes are in one region, and for a store that region is the stack (R42, R52). -/
def State.valid (s : State) (addr : Dword) (n : Nat) (kind : AccessKind) : Bool :=
  (s.inProg addr.toNat n && kind != .store) || s.inStack addr.toNat n

/-! ### Accesses of 4 and 8 bytes (R45) -/

/-- `load_word32(addr)`: `MemRead(addr, 4)`. -/
def State.readWord (s : State) (addr : Dword) : Word := s.mem.read addr.toNat 4

/-- `load_doubleword(addr)`: `MemRead(addr, 8)`. -/
def State.readDword (s : State) (addr : Dword) : Dword := s.mem.read addr.toNat 8

/-- `store_doubleword(addr, v)`: `MemWrite(addr, 8, v)`. -/
def State.writeDword (s : State) (addr v : Dword) : State := { s with mem := s.mem.write addr.toNat 8 v }

/-! ### The instruction pointer (R24, R105) -/

/-- `pc <- t`. -/
def State.setPc (s : State) (t : Dword) : State := { s with pc := t }

/-- The default advance of an F24 instruction: `pc <- pc + STEP24` (R105). -/
def State.advance24 (s : State) : State := s.setPc (s.pc + step24)

/-- The default advance of an F32 instruction: `pc <- pc + 4` (R105). -/
def State.advance32 (s : State) : State := s.setPc (s.pc + step32)

/-! ### Faults, pause and console output -/

/-- `raise F(info)`: "The run status becomes `Faulted(F, info)` and nothing else changes" (R188). There is no return
from it (R189): the status is terminal (R198). -/
def State.raise (s : State) (cause : FaultCause) : State := { s with status := .faulted cause }

/-- `pause`: the run status becomes `Paused`; `pc`, registers and memory stay (R165). -/
def State.pause (s : State) : State := { s with status := .paused }

/-- What `Resume` does to a paused engine: `pc <- pc + 4`, status `Running`, nothing else (R166). -/
def State.resumed (s : State) : State := { s with pc := s.pc + 4, status := .running }

/-- `emit ConsoleOut(v)` (R167). -/
def State.emit (s : State) (v : Dword) : State := { s with console := s.console ++ [v] }

/-! ### The fetch unit (R101) -/

/-- Fetch: the alignment check, then the bounds check, then the big-endian word. -/
def State.fetch (s : State) : Except FaultCause Word :=
  if s.pc.toNat % fetchAlign ≠ 0 then .error (.misalignedFetch s.pc)
  else if s.valid s.pc fetchBytes .fetch then .ok (s.readWord s.pc)
  else .error (.memoryFault .fetch s.pc)

/-! ### The host's events (R9) -/

/-- The load of an image into an engine that has no program: the bytes go in verbatim, `pc` to the first of them, the
status to `Running`; the registers and the stack region are not touched (R211). -/
def State.loaded (s : State) (image : List Byte) : State :=
  { s with
    progSize := image.length
    mem := s.mem.writeList s.cfg.progBase.toNat image
    pc := s.cfg.progBase
    status := .running }

/-- A load event. It is refused within a launch that has its program (R215; `State.reload` is a new launch), for an empty image (R212), and for one whose
length breaks R41 (`notes/assumptions/11.md`, `12.md`). -/
def State.load (s : State) (image : List Byte) : Result :=
  if s.status ≠ .notLoaded then .refused .secondLoad
  else if image = [] then .refused .emptyImage
  else if s.cfg.fits image.length then .next (s.loaded image)
  else .refused .imageDoesNotFit

/-- A launch: construction, then the load of an image (R210). It is also how a faulted engine is recovered: "the only way
on is to construct and load anew" (R198). -/
def State.launch (c : Config) (image : List Byte) : Result := (State.construct c).load image

/-- What a reload starts from: "a new launch whose registers (other than `x[0]`) and stack bytes are then unspecified
rather than reset" (R215, D30). The unspecified values are arguments that nothing constrains, as `REG_INIT` is; of
`stack` the first `STACK_SIZE` bytes count. The spec does not say whether the launch parameters, `PROG_BASE` above all,
stay those of the old launch, so the new launch takes its own, `c`, which may be the old ones (DESIGN CHOICE,
`notes/assumptions/22.md`). The old program region is released, the record of the console begins anew and the queued
events stay (`notes/assumptions/21.md`). -/
def State.relaunched (s : State) (c : Config) (regs : Vector Dword 31) (stack : List Byte) : State :=
  { State.construct c with
    regs := regs
    mem := Memory.writeList [] c.stackBase.toNat (stack.take c.stackSize)
    inputs := s.inputs }

/-- A load by the host into a live engine, running or paused: the load of R211 into a new launch (R215). Into an engine
without a program it is the first load of its launch (R210), and a faulted engine takes none (R198, R210). It is no step
of the old launch (`notes/assumptions/21.md`). -/
def State.reload (s : State) (c : Config) (image : List Byte) (regs : Vector Dword 31) (stack : List Byte) : Result :=
  match s.status with
  | .notLoaded => s.load image
  | .running => (s.relaunched c regs stack).load image
  | .paused => (s.relaunched c regs stack).load image
  | .faulted _ => .refused .reloadOfFaulted

/-- A resume event: it acts on a paused engine only (R166); the value it carries is ignored. -/
def State.resume (s : State) (_value : Dword) : Result :=
  if s.status = .paused then .next s.resumed else .next s

/-- The delivery of one event to the core, at any time between two steps. -/
def State.deliver (s : State) : HostEvent → Result
  | .load image => s.load image
  | .resume value => s.resume value

/-- A step of an engine that waits for the host, before the load or paused: the next event is delivered, and while
there is none the state stays as it is (R165: "The engine stays `Paused` for as long as the host sends no `Resume`";
`notes/assumptions/8.md`, `9.md`). -/
def State.awaitHost (s : State) : Result :=
  match s.inputs with
  | [] => .next s
  | e :: rest => { s with inputs := rest }.deliver e

/-- A snapshot for the diagnostic printer (R34). -/
def State.snapshot (s : State) : Snapshot where
  pc := s.pc
  regs := (List.range 32).map (fun i => s.reg (BitVec.ofNat 5 i))
  stack := (List.range s.cfg.stackSize).map (fun i => s.byteAt (s.cfg.stackBase.toNat + i))

end Sys2Proof.Machine
end

