-- ==== Sys2Proof/Machine/Alu24.lean ====
section
/-! DEFINITION. The 24-bit family (spec `41_alu24.md`): `x[rc] <- x[ra] op x[rb]`, then `pc <- pc + STEP24`. -/

namespace Sys2Proof.Machine

/-- What the five have in common (R125): both sources are read before the destination is written, nothing faults, no
flag exists, a destination of `x[0]` discards the result. -/
def State.aluReg (s : State) (op : Dword → Dword → Dword) (ra rb rc : RegIdx) : State :=
  (s.setReg rc (op (s.reg ra) (s.reg rb))).advance24

/-- ADD (R120), modulo 2^64. -/
def execAdd (ra rb rc : RegIdx) (s : State) : Result := .next (s.aluReg (fun a b => a + b) ra rb rc)

/-- SUB (R121): `ra` minus `rb`, modulo 2^64. -/
def execSub (ra rb rc : RegIdx) (s : State) : Result := .next (s.aluReg (fun a b => a - b) ra rb rc)

/-- AND (R122), bitwise. -/
def execAnd (ra rb rc : RegIdx) (s : State) : Result := .next (s.aluReg (fun a b => a &&& b) ra rb rc)

/-- OR (R123), bitwise. -/
def execOr (ra rb rc : RegIdx) (s : State) : Result := .next (s.aluReg (fun a b => a ||| b) ra rb rc)

/-- XOR (R124), bitwise. -/
def execXor (ra rb rc : RegIdx) (s : State) : Result := .next (s.aluReg (fun a b => a ^^^ b) ra rb rc)

end Sys2Proof.Machine
end

