-- ==== Sys2Proof/Machine/AluImm32.lean ====
section
/-! DEFINITION. The register/immediate ALU instructions of the 32-bit family (spec `42_alu_imm32.md`):
`x[rb] <- x[ra] op sext_13(imm13)`, then `pc <- pc + 4`. -/

namespace Sys2Proof.Machine

/-- What the four have in common (R134): the source is read before the destination is written, the immediate is
sign-extended for the logical operations too, nothing faults. -/
def State.aluImm (s : State) (op : Dword → Dword → Dword) (ra rb : RegIdx) (imm : BitVec 13) : State :=
  (s.setReg rb (op (s.reg ra) (sext13 imm))).advance32

/-- ADDI (R130), modulo 2^64. -/
def execAddi (ra rb : RegIdx) (imm : BitVec 13) (s : State) : Result :=
  .next (s.aluImm (fun a b => a + b) ra rb imm)

/-- ANDI (R131), bitwise. -/
def execAndi (ra rb : RegIdx) (imm : BitVec 13) (s : State) : Result :=
  .next (s.aluImm (fun a b => a &&& b) ra rb imm)

/-- ORI (R132), bitwise. -/
def execOri (ra rb : RegIdx) (imm : BitVec 13) (s : State) : Result :=
  .next (s.aluImm (fun a b => a ||| b) ra rb imm)

/-- XORI (R133), bitwise. -/
def execXori (ra rb : RegIdx) (imm : BitVec 13) (s : State) : Result :=
  .next (s.aluImm (fun a b => a ^^^ b) ra rb imm)

end Sys2Proof.Machine
end

