-- ==== Sys2Proof/Machine/BranchJump.lean ====
section
/-! DEFINITION. Control transfer (spec `44_branch_jump.md`). Targets are not checked when they are computed; the next
fetch checks them (R156). -/

namespace Sys2Proof.Machine

/-- What the three branches have in common (R150): the raw byte displacement when taken, the default advance when
not. -/
def State.branch (s : State) (taken : Bool) (imm : BitVec 13) : State :=
  if taken then s.setPc (s.branchTarget imm) else s.advance32

/-- BEQ (R151). -/
def execBeq (ra rb : RegIdx) (imm : BitVec 13) (s : State) : Result :=
  .next (s.branch (condEq (s.reg ra) (s.reg rb)) imm)

/-- BNE (R152). -/
def execBne (ra rb : RegIdx) (imm : BitVec 13) (s : State) : Result :=
  .next (s.branch (condNe (s.reg ra) (s.reg rb)) imm)

/-- BLT (R153): taken when `x[rb]` is below `x[ra]`, signed. -/
def execBlt (ra rb : RegIdx) (imm : BitVec 13) (s : State) : Result :=
  .next (s.branch (condLt (s.reg ra) (s.reg rb)) imm)

/-- JAL (R154): both sums use the `pc` of the JAL itself; the two opcode values mean the same. -/
def execJal (_form : JalForm) (imm : BitVec 23) (s : State) : Result :=
  .next ((s.setReg linkReg (s.pc + 4)).setPc (s.jalTarget imm))

/-- JR (R155): all 64 bits of `x[31]`. -/
def execJr (s : State) : Result := .next (s.setPc (s.reg linkReg))

end Sys2Proof.Machine
end

