-- ==== Sys2Proof/Machine/Control.lean ====
section
/-! DEFINITION. The control unit (spec `45_control.md`). -/

namespace Sys2Proof.Machine

/-- HALT (R165): a pause, with `pc` still at the HALT. -/
def execHalt (s : State) : Result := .next s.pause

/-- SYSCALL (R167): the value of `x[1]` leaves the core, then the default advance. -/
def execSyscall (s : State) : Result := .next (s.emit (s.reg syscallReg)).advance32

end Sys2Proof.Machine
end

