-- ==== Sys2Proof/Machine/LoadStore.lean ====
section
/-! DEFINITION. Load and store (spec `43_load_store.md`). -/

namespace Sys2Proof.Machine

/-- LD (R141): the access is made, and can fault, with destination `x[0]` too. -/
def execLd (ra rb : RegIdx) (imm : BitVec 13) (s : State) : Result :=
  let ea := s.effAddr ra imm
  if s.valid ea 8 .load then .next (s.setReg rb (s.readDword ea)).advance32
  else .next (s.raise (.memoryFault .load ea))

/-- SD (R142): into the stack region only; a fault writes no byte. -/
def execSd (ra rb : RegIdx) (imm : BitVec 13) (s : State) : Result :=
  let ea := s.effAddr ra imm
  if s.valid ea 8 .store then .next (s.writeDword ea (s.reg rb)).advance32
  else .next (s.raise (.memoryFault .store ea))

end Sys2Proof.Machine
end

