-- ==== Sys2Proof/Machine/Dispatch.lean ====
section
/-! DEFINITION. Execution of a decoded instruction: one arm per constructor (spec R100, step 4; R104: "a model must have
no default arm that executes something"). -/

namespace Sys2Proof.Machine

def exec (i : Instr) (s : State) : Host.Outcome State Fault Refusal :=
  match i with
  | .add ra rb rc => Sys2Proof.Machine.execAdd ra rb rc s
  | .sub ra rb rc => Sys2Proof.Machine.execSub ra rb rc s
  | .and ra rb rc => Sys2Proof.Machine.execAnd ra rb rc s
  | .or ra rb rc => Sys2Proof.Machine.execOr ra rb rc s
  | .xor ra rb rc => Sys2Proof.Machine.execXor ra rb rc s
  | .addi ra rb imm => Sys2Proof.Machine.execAddi ra rb imm s
  | .andi ra rb imm => Sys2Proof.Machine.execAndi ra rb imm s
  | .ori ra rb imm => Sys2Proof.Machine.execOri ra rb imm s
  | .xori ra rb imm => Sys2Proof.Machine.execXori ra rb imm s
  | .ld ra rb imm => Sys2Proof.Machine.execLd ra rb imm s
  | .sd ra rb imm => Sys2Proof.Machine.execSd ra rb imm s
  | .beq ra rb imm => Sys2Proof.Machine.execBeq ra rb imm s
  | .bne ra rb imm => Sys2Proof.Machine.execBne ra rb imm s
  | .blt ra rb imm => Sys2Proof.Machine.execBlt ra rb imm s
  | .jr => Sys2Proof.Machine.execJr s
  | .halt => Sys2Proof.Machine.execHalt s
  | .syscall => Sys2Proof.Machine.execSyscall s
  | .jal form imm => Sys2Proof.Machine.execJal form imm s

end Sys2Proof.Machine
end

