-- ==== Sys2Proof/Machine/Cycle.lean ====
section
/-! DEFINITION. The instruction cycle (spec R100), what each run status does with a step, and the placing of a word
where the next step fetches. -/

namespace Sys2Proof.Machine

/-- One instruction of a running engine: fetch, classify, dispatch, execute (R100). Whatever of these raises, the step
has no other effect (R188). -/
def State.cycle (s : State) : Result :=
  match s.fetch with
  | .error cause => .next (s.raise cause)
  | .ok w =>
    match decodeWord s.cfg.ops w with
    | .instr i => exec i s
    | .decodeError => .next (s.raise (.decodeError w))
    | .unknownOpcode => .next (s.raise (.unknownOpcode w))

/-- A running engine runs one instruction, an engine that waits for the host takes the host's next event if there is
one, and a faulted engine takes no step (R100, R166, R198, R210; `notes/assumptions/7.md`, `8.md`). -/
def State.engineStep (s : State) : Result :=
  match s.status with
  | .running => s.cycle
  | .notLoaded => s.awaitHost
  | .paused => s.awaitHost
  | .faulted cause => .fault (.terminated cause)

/-- Put the word of an instruction where the next step fetches. The engine is running; `pc` stays if a fetch at it is
valid, and else goes to `PROG_BASE` in a program region of at least 4 bytes. It stands for the load of a program
(`notes/assumptions/18.md`). -/
def State.placeWord (s : State) (w : Word) : State :=
  let here := s.pc.toNat % fetchAlign = 0 ∧ s.valid s.pc fetchBytes .fetch = true
  let pc := if here then s.pc else s.cfg.progBase
  { s with
    status := .running
    pc := pc
    progSize := if here then s.progSize else max s.progSize fetchBytes
    mem := s.mem.writeList pc.toNat (wordBytes w) }

end Sys2Proof.Machine
end

