-- ==== Sys2Proof/Machine/Step.lean ====
section
/-! DEFINITION. The step function of the machine, and the placing of an opcode-table word (see `Cycle.lean`). -/

namespace Sys2Proof.Machine

/-- One step of the core (R100). -/
def step (s : State) : Host.Outcome State Fault Refusal := s.engineStep

/-- `s` with a table row's word where the next step fetches, so that this step runs it. -/
def State.withFetchWord (s : State) (nbits w : Nat) : State := s.placeWord (tableWord nbits w)

end Sys2Proof.Machine
end

