-- ==== Sys2Proof/Safety.lean ====
section
/-! DEFINITION. The terms claims are stated in: what an instruction keeps, which registers it reads and writes, the
machine's invariant, and the ways a run ends (spec R23, R41, R216). -/

namespace Sys2Proof.Machine

/-! ### What stays as it was -/

/-- Every general register reads as before. -/
def keepsRegs (s t : State) : Prop := ∀ q, t.reg q = s.reg q

/-- Every general register but `r` reads as before. -/
def keepsRegsBut (r : RegIdx) (s t : State) : Prop := ∀ q, q ≠ r → t.reg q = s.reg q

/-- Every byte of memory reads as before. -/
def keepsBytes (s t : State) : Prop := ∀ a, t.byteAt a = s.byteAt a

/-- Every byte of memory outside the `n` bytes at `addr` reads as before. -/
def keepsBytesOutside (addr n : Nat) (s t : State) : Prop :=
  ∀ a, a < addr ∨ addr + n ≤ a → t.byteAt a = s.byteAt a

/-- The run status, the console output and the host's events are as before. -/
def keepsRun (s t : State) : Prop := t.status = s.status ∧ t.console = s.console ∧ t.inputs = s.inputs

/-- The launch parameters and the size of the program region are as before. -/
def keepsLaunch (s t : State) : Prop := t.cfg = s.cfg ∧ t.progSize = s.progSize

/-- `i` at `s` answers a next state in which `rd` reads `v` (0 if `rd` is register 0, R21), `pc` is 4 on, and
everything else is as before. -/
def completesWriting (i : Instr) (s : State) (rd : RegIdx) (v : Dword) : Prop :=
  ∃ t, exec i s = .next t ∧ t.reg rd = (if rd = 0 then 0 else v) ∧ keepsRegsBut rd s t ∧
    t.pc = s.pc + 4 ∧ keepsBytes s t ∧ keepsRun s t ∧ keepsLaunch s t

/-- `i` at `s` answers a next state in which `pc` is `target` and everything else is as before. -/
def completesGoing (i : Instr) (s : State) (target : Dword) : Prop :=
  ∃ t, exec i s = .next t ∧ t.pc = target ∧ keepsRegs s t ∧ keepsBytes s t ∧ keepsRun s t ∧ keepsLaunch s t

/-- `s` with other host events to come. -/
def State.expecting (s : State) (events : List HostEvent) : State := { s with inputs := events }

/-! ### Encodings (R72 to R75, R84) -/

/-- Under every pair of injective maps the word `w` gives is the one the encoder builds for `i` and decodes to `i`. -/
def encodedAs (w : OpMap → Word) (i : Instr) : Prop :=
  ∀ m : OpMap, m.wf → encode m i = w m ∧ decodeWord m (w m) = .instr i

/-- The bits of a word that are part of the instruction: bits 7:0 of F24 and bits 22:0 of F32C are ignored (R72,
R75). -/
def keptBits : Instr → Word
  | .add _ _ _ | .sub _ _ _ | .and _ _ _ | .or _ _ _ | .xor _ _ _ => 0xFFFFFF00
  | .jr | .halt | .syscall => 0xFF800000
  | .addi _ _ _ | .andi _ _ _ | .ori _ _ _ | .xori _ _ _ | .ld _ _ _ | .sd _ _ _ | .beq _ _ _ | .bne _ _ _
  | .blt _ _ _ | .jal _ _ => 0xFFFFFFFF

/-! ### The table of R23 -/

/-- The registers an instruction reads. -/
def readsOf : Instr → List RegIdx
  | .add ra rb _ => [ra, rb]
  | .sub ra rb _ => [ra, rb]
  | .and ra rb _ => [ra, rb]
  | .or ra rb _ => [ra, rb]
  | .xor ra rb _ => [ra, rb]
  | .addi ra _ _ => [ra]
  | .andi ra _ _ => [ra]
  | .ori ra _ _ => [ra]
  | .xori ra _ _ => [ra]
  | .ld ra _ _ => [ra]
  | .sd ra rb _ => [ra, rb]
  | .beq ra rb _ => [ra, rb]
  | .bne ra rb _ => [ra, rb]
  | .blt ra rb _ => [ra, rb]
  | .jr => [31]
  | .halt => []
  | .syscall => [1]
  | .jal _ _ => []

/-- The registers an instruction writes. -/
def writesOf : Instr → List RegIdx
  | .add _ _ rc => [rc]
  | .sub _ _ rc => [rc]
  | .and _ _ rc => [rc]
  | .or _ _ rc => [rc]
  | .xor _ _ rc => [rc]
  | .addi _ rb _ => [rb]
  | .andi _ rb _ => [rb]
  | .ori _ rb _ => [rb]
  | .xori _ rb _ => [rb]
  | .ld _ rb _ => [rb]
  | .sd _ _ _ => []
  | .beq _ _ _ => []
  | .bne _ _ _ => []
  | .blt _ _ _ => []
  | .jr => []
  | .halt => []
  | .syscall => []
  | .jal _ _ => [31]

/-- The control transfers: the branches, JAL and JR (R156). -/
def isTransfer : Instr → Bool
  | .beq _ _ _ | .bne _ _ _ | .blt _ _ _ | .jr | .jal _ _ => true
  | .add _ _ _ | .sub _ _ _ | .and _ _ _ | .or _ _ _ | .xor _ _ _ | .addi _ _ _ | .andi _ _ _ | .ori _ _ _
  | .xori _ _ _ | .ld _ _ _ | .sd _ _ _ | .halt | .syscall => false

/-- Step `s` runs the instruction `i`: the engine is running and the word at `pc` is fetched and decodes to `i`. -/
def State.runs (s : State) (i : Instr) : Prop :=
  s.status = .running ∧ ∃ w, s.fetch = .ok w ∧ decodeWord s.cfg.ops w = .instr i

/-! ### The invariant -/

/-- The machine's memory is in canonical form and lists addresses of the two regions only, the launch parameters obey R4
and R41, and a program region is there exactly when an image has been loaded. -/
structure State.Inv (s : State) : Prop where
  /-- R4, R41, R77, R78. -/
  params : s.cfg.wf
  /-- The canonical form of memory. -/
  canonical : s.mem.wf
  /-- "The space holds two regions and nothing else" (R41). -/
  placed : ∀ c ∈ s.mem, s.inProg c.1 1 = true ∨ s.inStack c.1 1 = true
  /-- R41 on `PROG_SIZE`, once there is a program (R211). -/
  loaded : s.status ≠ .notLoaded → s.cfg.fits s.progSize
  /-- There is no program region before the load (R210). -/
  unloaded : s.status = .notLoaded → s.progSize = 0

/-! ### Runs and how they end (R216) -/

/-- The outcome of `k` steps, stopping at the first that answers no next state. -/
def State.stepN : Nat → State → Result
  | 0, s => .next s
  | k + 1, s =>
    match step s with
    | .next t => t.stepN k
    | .fault r => .fault r
    | .refused r => .refused r

/-- After `k` steps the engine has faulted with `cause`: "the run went wrong". -/
def State.faultsAfter (s : State) (k : Nat) (cause : FaultCause) : Prop :=
  ∃ t, s.stepN k = .next t ∧ t.status = .faulted cause

/-- No step of the run from `s` raises a fault: "a claim about a program takes "no fault" as part of what it proves"
(R198). -/
def State.faultFree (s : State) : Prop := ∀ k cause, ¬ s.faultsAfter k cause

/-- `t` is "the first `Paused` state" of the run from `s`, reached after `k` steps. -/
def State.firstPause (s : State) (k : Nat) (t : State) : Prop :=
  s.stepN k = .next t ∧ t.status = .paused ∧ ∀ j < k, ∀ u, s.stepN j = .next u → u.status ≠ .paused

/-- How many of the first `k` steps entered `Paused`. -/
def State.pauses : Nat → State → Nat
  | 0, _ => 0
  | k + 1, s =>
    match step s with
    | .next t => (if s.status ≠ .paused ∧ t.status = .paused then 1 else 0) + t.pauses k
    | _ => 0

/-- `t` is "the n-th `Paused` state" of the run from `s`: a step enters it after `n - 1` earlier pauses. -/
def State.nthPause (s : State) (n : Nat) (t : State) : Prop :=
  ∃ k u, s.stepN k = .next u ∧ u.status ≠ .paused ∧ step u = .next t ∧ t.status = .paused ∧ s.pauses k + 1 = n

/-- The run from `s` never stops: every number of steps leaves the engine running. -/
def State.neverStops (s : State) : Prop := ∀ k, ∃ t, s.stepN k = .next t ∧ t.status = .running

end Sys2Proof.Machine
end

