-- ==== Sys2Proof/Certificates/Slice0/Obligations.lean ====
section
/-! DEFINITION. The statements for the provers. Each docstring names the rule of `spec/` it formalises; where a clause
rests on a choice of the model's own it names the entry of `notes/assumptions/`. -/

open Sys2Proof Sys2Proof.Machine

/-! ### Encoding and decoding -/

/-- R77, R78: the default maps are those of the two tables, and both are injective. -/
def Obligations.DefaultMapsInjective : Prop :=
  OpMap24.default.values = [0, 1, 2, 3, 4] ∧
  OpMap32.default.values = [0, 1, 2, 3, 4, 5, 6, 7, 8, 9, 10, 11, 62, 63] ∧
  OpMap.default.wf

/-- Words of every family, written out bit by bit from R72 to R75 with the default maps, decode to their instruction. -/
def Obligations.SampleWordsDecode : Prop :=
  decodeWord OpMap.default 0b11000000001000010010101000000000#32 = .instr (.add 8 9 10) ∧
  decodeWord OpMap.default 0b11000000101000010010101111111111#32 = .instr (.sub 8 9 11) ∧
  decodeWord OpMap.default 0b11100000000000010011111111111101#32 = .instr (.addi 0 9 0x1FFD) ∧
  decodeWord OpMap.default 0b11100010011110010011111111111000#32 = .instr (.ld 30 9 0x1FF8) ∧
  decodeWord OpMap.default 0b11100100001000010010000000001100#32 = .instr (.blt 8 9 12) ∧
  decodeWord OpMap.default 0b11100100100000000000000000000000#32 = .instr .jr ∧
  decodeWord OpMap.default 0b11100101111111111111111111111111#32 = .instr .syscall ∧
  decodeWord OpMap.default 0b11111111011111111111111111111000#32 = .instr (.jal .a 0x7FFFF8) ∧
  decodeWord OpMap.default 0b11111111100000000000000000010000#32 = .instr (.jal .b 16) ∧
  decodeWord OpMap.default 0b11000010100000000000000000000000#32 = .unknownOpcode ∧
  decodeWord OpMap.default 0b10111111111111111111111111111111#32 = .decodeError

/-- R72 to R75, R84: under every pair of injective maps each instruction's word decodes to it, and so do its four bytes
at the head of any byte string. -/
def Obligations.DecodeOfEncodeIsInstruction : Prop :=
  ∀ (m : OpMap) (i : Instr) (rest : List Byte), m.wf →
    decodeWord m (encode m i) = .instr i ∧ decodeBytes m (encodeBytes m i ++ rest) = .word (.instr i) rest

/-- R72 to R75, R84: a word that decodes to an instruction is that instruction's word, but for the ignored bits, which
the encoder writes as 0. -/
def Obligations.EncodeOfDecodeIsWord : Prop :=
  ∀ (m : OpMap) (w : Word) (i : Instr), decodeWord m w = .instr i → encode m i = w &&& keptBits i

/-- R80: every word has exactly one of its fates, and the ignored bits do not affect it. -/
def Obligations.EveryWordHasOneFate : Prop :=
  ∀ (s : State) (w : Word), s.status = .running → s.fetch = .ok w →
    (famField w ≠ 0b110#3 → famField w ≠ 0b111#3 →
      step s = .next { s with status := .faulted (.decodeError w) }) ∧
    (famField w = 0b110#3 → opField w ∉ s.cfg.ops.f24.values →
      step s = .next { s with status := .faulted (.unknownOpcode w) }) ∧
    (famField w = 0b111#3 → opField w ∉ s.cfg.ops.f32.values →
      step s = .next { s with status := .faulted (.unknownOpcode w) }) ∧
    (famField w = 0b110#3 ∧ opField w ∈ s.cfg.ops.f24.values ∨
        famField w = 0b111#3 ∧ opField w ∈ s.cfg.ops.f32.values →
      ∃ i, decodeWord s.cfg.ops w = .instr i ∧ encode s.cfg.ops i = w &&& keptBits i ∧ step s = exec i s ∧
        ∀ w', w' &&& keptBits i = w &&& keptBits i → decodeWord s.cfg.ops w' = .instr i)

/-- The instruction read from a table row's bits is the one its 32-bit word decodes to under the default maps. -/
def Obligations.TableWordDecodesAsWord : Prop :=
  ∀ (nbits w : Nat) (i : Instr),
    decodeTableWord nbits w = some i ↔ decodeWord OpMap.default (tableWord nbits w) = .instr i

/-- R76: the value of an immediate is that of the signed field: -4096 to 4095 for `imm13`, -4194304 to 4194303 for
`imm23`, neither scaled. -/
def Obligations.ImmediatesAreSigned : Prop :=
  (∀ imm : BitVec 13, (sext13 imm).toInt = imm.toInt ∧ -4096 ≤ imm.toInt ∧ imm.toInt ≤ 4095) ∧
  (∀ imm : BitVec 23, (sext23 imm).toInt = imm.toInt ∧ -4194304 ≤ imm.toInt ∧ imm.toInt ≤ 4194303) ∧
  sext13 0x1FFF = 0xFFFFFFFFFFFFFFFF ∧ sext13 0x1000 = 0xFFFFFFFFFFFFF000 ∧ sext13 0xFFF = 0xFFF ∧
  sext23 0x400000 = 0xFFFFFFFFFFC00000 ∧ sext23 0x3FFFFF = 0x3FFFFF

/-! ### The cycle and the fetch unit -/

/-- R100: a step of a running engine whose word at `pc` decodes is that instruction's meaning; the step adds nothing
around it. -/
def Obligations.StepRunsDecodedInstruction : Prop :=
  ∀ (s : State) (i : Instr), s.status = .running → s.pc.toNat % 4 = 0 → s.valid s.pc 4 .fetch = true →
    decodeWord s.cfg.ops (s.readWord s.pc) = .instr i → step s = exec i s

/-- R70, R84, R100: where the four bytes at `pc` are an instruction's bytes, the step runs that instruction. -/
def Obligations.StepRunsEncodedInstruction : Prop :=
  ∀ (s : State) (i : Instr), s.cfg.ops.wf → s.status = .running → s.pc.toNat % 4 = 0 →
    s.valid s.pc 4 .fetch = true →
    [s.byteAt s.pc.toNat, s.byteAt (s.pc.toNat + 1), s.byteAt (s.pc.toNat + 2), s.byteAt (s.pc.toNat + 3)] =
      encodeBytes s.cfg.ops i →
    step s = exec i s

/-- R101: the alignment check comes first, then the bounds check, then the big-endian word. -/
def Obligations.FetchUnit : Prop :=
  ∀ s : State,
    (s.pc.toNat % 4 ≠ 0 → s.fetch = .error (.misalignedFetch s.pc)) ∧
    (s.pc.toNat % 4 = 0 → s.valid s.pc 4 .fetch = false → s.fetch = .error (.memoryFault .fetch s.pc)) ∧
    (s.pc.toNat % 4 = 0 → s.valid s.pc 4 .fetch = true →
      ∃ w, s.fetch = .ok w ∧
        w.extractLsb' 24 8 = s.byteAt s.pc.toNat ∧ w.extractLsb' 16 8 = s.byteAt (s.pc.toNat + 1) ∧
        w.extractLsb' 8 8 = s.byteAt (s.pc.toNat + 2) ∧ w.extractLsb' 0 8 = s.byteAt (s.pc.toNat + 3))

/-- The place of a table row's word (`notes/assumptions/18.md`, the model's own): the next fetch gives exactly that
word to a running engine, whatever the state before, if `PROG_BASE` obeys R41. -/
def Obligations.PlacedWordIsFetched : Prop :=
  ∀ (s : State) (nbits w : Nat), s.cfg.basesAligned →
    (s.withFetchWord nbits w).status = .running ∧ (s.withFetchWord nbits w).fetch = .ok (tableWord nbits w) ∧
    keepsRegs s (s.withFetchWord nbits w) ∧ (s.withFetchWord nbits w).cfg = s.cfg

/-! ### Registers -/

/-- R20: a written register reads what was written, and no write reaches another register; register 0 takes none. -/
def Obligations.RegisterFile : Prop :=
  ∀ (s : State) (r q : RegIdx) (v : Dword),
    (s.setReg r v).reg q = (if q = r ∧ r ≠ 0 then v else s.reg q)

/-- R21: register 0 reads 0 after every instruction, a write to it is a no-op, and an instruction whose destination it is
does everything else it does: it advances `pc`, and LD still makes its access and can still fault. -/
def Obligations.RegisterZero : Prop :=
  (∀ (s : State) (v : Dword), s.reg 0 = 0 ∧ s.setReg 0 v = s) ∧
  (∀ (i : Instr) (s t : State), exec i s = .next t → t.reg 0 = 0) ∧
  (∀ (s : State) (ra rb : RegIdx) (imm : BitVec 13),
    completesWriting (.add ra rb 0) s 0 0 ∧ completesWriting (.sub ra rb 0) s 0 0 ∧
    completesWriting (.and ra rb 0) s 0 0 ∧ completesWriting (.or ra rb 0) s 0 0 ∧
    completesWriting (.xor ra rb 0) s 0 0 ∧ completesWriting (.addi ra 0 imm) s 0 0 ∧
    completesWriting (.andi ra 0 imm) s 0 0 ∧ completesWriting (.ori ra 0 imm) s 0 0 ∧
    completesWriting (.xori ra 0 imm) s 0 0 ∧
    (s.valid (s.reg ra + sext13 imm) 8 .load = true → completesWriting (.ld ra 0 imm) s 0 0) ∧
    (s.valid (s.reg ra + sext13 imm) 8 .load = false →
      exec (.ld ra 0 imm) s = .next { s with status := .faulted (.memoryFault .load (s.reg ra + sext13 imm)) }))

/-- R23: an instruction changes no register outside its row's "writes", and no register outside its row's "reads"
influences what it does: with another value there, it answers the same but for that register, and the same there too
if it writes it. -/
def Obligations.RegisterTable : Prop :=
  (∀ (i : Instr) (s t : State) (q : RegIdx), exec i s = .next t → q ∉ writesOf i → t.reg q = s.reg q) ∧
  (∀ (i : Instr) (s t : State) (q : RegIdx) (v : Dword), exec i s = .next t → q ∉ readsOf i →
    ∃ t', exec i (s.setReg q v) = .next t' ∧ t'.pc = t.pc ∧ t'.status = t.status ∧ t'.console = t.console ∧
      keepsBytes t t' ∧ keepsRegsBut q t t' ∧
      (q ∈ writesOf i → (∀ c, t.status ≠ .faulted c) → t'.reg q = t.reg q))

/-! ### The ALU families -/

/-- R120 to R124: each register-register instruction at every state and operands writes its result to `x[rc]`, advances
`pc` by 4 and changes nothing else; its encoding is F24 with its opcode value, and the defaults are 0 to 4. -/
def Obligations.AluRegisterInstructions : Prop :=
  (∀ (s : State) (ra rb rc : RegIdx),
    completesWriting (.add ra rb rc) s rc (s.reg ra + s.reg rb) ∧
    completesWriting (.sub ra rb rc) s rc (s.reg ra - s.reg rb) ∧
    completesWriting (.and ra rb rc) s rc (s.reg ra &&& s.reg rb) ∧
    completesWriting (.or ra rb rc) s rc (s.reg ra ||| s.reg rb) ∧
    completesWriting (.xor ra rb rc) s rc (s.reg ra ^^^ s.reg rb)) ∧
  (∀ ra rb rc : RegIdx,
    encodedAs (fun m => encF24 m.f24.add rc ra rb) (.add ra rb rc) ∧
    encodedAs (fun m => encF24 m.f24.sub rc ra rb) (.sub ra rb rc) ∧
    encodedAs (fun m => encF24 m.f24.and rc ra rb) (.and ra rb rc) ∧
    encodedAs (fun m => encF24 m.f24.or rc ra rb) (.or ra rb rc) ∧
    encodedAs (fun m => encF24 m.f24.xor rc ra rb) (.xor ra rb rc)) ∧
  OpMap24.default = { add := 0, sub := 1, and := 2, or := 3, xor := 4 }

/-- R130 to R133: each register-immediate instruction at every state and operands writes its result to `x[rb]`, with the
immediate sign-extended, advances `pc` by 4 and changes nothing else; its encoding is F32I with its opcode value, and
the defaults are 0 to 3. -/
def Obligations.AluImmediateInstructions : Prop :=
  (∀ (s : State) (ra rb : RegIdx) (imm : BitVec 13),
    completesWriting (.addi ra rb imm) s rb (s.reg ra + imm.signExtend 64) ∧
    completesWriting (.andi ra rb imm) s rb (s.reg ra &&& imm.signExtend 64) ∧
    completesWriting (.ori ra rb imm) s rb (s.reg ra ||| imm.signExtend 64) ∧
    completesWriting (.xori ra rb imm) s rb (s.reg ra ^^^ imm.signExtend 64)) ∧
  (∀ (ra rb : RegIdx) (imm : BitVec 13),
    encodedAs (fun m => encF32I m.f32.addi rb ra imm) (.addi ra rb imm) ∧
    encodedAs (fun m => encF32I m.f32.andi rb ra imm) (.andi ra rb imm) ∧
    encodedAs (fun m => encF32I m.f32.ori rb ra imm) (.ori ra rb imm) ∧
    encodedAs (fun m => encF32I m.f32.xori rb ra imm) (.xori ra rb imm)) ∧
  OpMap32.default.addi = 0 ∧ OpMap32.default.andi = 1 ∧ OpMap32.default.ori = 2 ∧ OpMap32.default.xori = 3

/-! ### Memory -/

/-- R43: the byte at the lowest address is the most significant, for 4 and for 8 bytes. -/
def Obligations.ReadsAreBigEndian : Prop :=
  ∀ (s : State) (addr : Dword),
    s.readWord addr =
      s.byteAt addr.toNat ++ s.byteAt (addr.toNat + 1) ++ s.byteAt (addr.toNat + 2) ++ s.byteAt (addr.toNat + 3) ∧
    s.readDword addr =
      s.byteAt addr.toNat ++ s.byteAt (addr.toNat + 1) ++ s.byteAt (addr.toNat + 2) ++ s.byteAt (addr.toNat + 3) ++
      s.byteAt (addr.toNat + 4) ++ s.byteAt (addr.toNat + 5) ++ s.byteAt (addr.toNat + 6) ++ s.byteAt (addr.toNat + 7)

/-- R44: `B(addr+i) <- v[8(n-i)-1 : 8(n-i-1)]` for each `i` below `n`, and no other byte changes. -/
def Obligations.WritesAreBigEndian : Prop :=
  ∀ (m : Memory) (addr n : Nat) (v : BitVec (8 * n)),
    (∀ i < n, (m.write addr n v).byteAt (addr + i) = v.extractLsb' (8 * (n - i - 1)) 8) ∧
    (∀ a, a < addr ∨ addr + n ≤ a → (m.write addr n v).byteAt a = m.byteAt a)

/-- R46: a doubleword stored at `a` is loaded back, whatever is written elsewhere in between. -/
def Obligations.DoublewordRoundTrip : Prop :=
  ∀ (m : Memory) (a : Nat) (v : Dword) (later : List (Nat × Byte)),
    (∀ c ∈ later, c.1 < a ∨ a + 8 ≤ c.1) →
    (later.foldl (fun m c => m.setByte c.1 c.2) (m.write a 8 v)).read a 8 = v

/-- R59: a 4-byte read sees the half of a stored doubleword that stands at its address, and a doubleword read gives,
byte by byte, what stands at each address. -/
def Obligations.MixedWidths : Prop :=
  (∀ (m : Memory) (a : Nat) (v : Dword),
    (m.write a 8 v).read a 4 = v.extractLsb' 32 32 ∧ (m.write a 8 v).read (a + 4) 4 = v.extractLsb' 0 32) ∧
  (∀ (m : Memory) (a i : Nat), i < 8 → (m.read a 8).extractLsb' (8 * (7 - i)) 8 = m.byteAt (a + i))

/-- R42: when an access is valid, the sums as unbounded integers. -/
def Obligations.ValidAccess : Prop :=
  ∀ (s : State) (addr : Dword) (n : Nat) (kind : AccessKind),
    s.valid addr n kind = true ↔
      (kind ≠ .store ∧ s.cfg.progBase.toNat ≤ addr.toNat ∧
        addr.toNat + n ≤ s.cfg.progBase.toNat + s.progSize) ∨
      (s.cfg.stackBase.toNat ≤ addr.toNat ∧ addr.toNat + n ≤ s.cfg.stackBase.toNat + s.cfg.stackSize)

/-- R51: a fetch, a load and a store with a byte outside both regions raise `MemoryFault` with their kind and address and
change nothing else. -/
def Obligations.OutOfBoundsFaults : Prop :=
  (∀ (s : State) (ra rb : RegIdx) (imm : BitVec 13) (k : Nat), k < 8 →
    s.inProg ((s.effAddr ra imm).toNat + k) 1 = false → s.inStack ((s.effAddr ra imm).toNat + k) 1 = false →
    exec (.ld ra rb imm) s = .next { s with status := .faulted (.memoryFault .load (s.effAddr ra imm)) } ∧
    exec (.sd ra rb imm) s = .next { s with status := .faulted (.memoryFault .store (s.effAddr ra imm)) }) ∧
  (∀ (s : State) (k : Nat), s.status = .running → s.pc.toNat % 4 = 0 → k < 4 →
    s.inProg (s.pc.toNat + k) 1 = false → s.inStack (s.pc.toNat + k) 1 = false →
    step s = .next { s with status := .faulted (.memoryFault .fetch s.pc) })

/-- R52: where the regions do not overlap (R41), a store whose 8 bytes lie in the program region faults and writes
nothing, and a load of them completes. -/
def Obligations.ProgramRegionAccess : Prop :=
  ∀ (s : State) (ra rb : RegIdx) (imm : BitVec 13), s.cfg.disjoint s.progSize →
    s.inProg (s.effAddr ra imm).toNat 8 = true →
    exec (.sd ra rb imm) s = .next { s with status := .faulted (.memoryFault .store (s.effAddr ra imm)) } ∧
    completesWriting (.ld ra rb imm) s rb (s.readDword (s.effAddr ra imm))

/-- R31, R41, R52: after the load a byte of memory changes in a step only by an SD that stores to it, and it is then a
byte of the stack region; and where the regions do not overlap (R41), no step changes a byte of the program region. -/
def Obligations.OnlyStoresChangeMemory : Prop :=
  ∀ s t : State, s.status ≠ .notLoaded → step s = .next t →
    (∀ a, t.byteAt a ≠ s.byteAt a →
      s.inStack a 1 = true ∧
      ∃ ra rb imm, s.runs (.sd ra rb imm) ∧ (s.effAddr ra imm).toNat ≤ a ∧ a < (s.effAddr ra imm).toNat + 8) ∧
    (s.cfg.disjoint s.progSize → ∀ a, s.inProg a 1 = true → t.byteAt a = s.byteAt a)

/-! ### Load and store -/

/-- R140: base plus sign-extended byte displacement, modulo 2^64. -/
def Obligations.EffectiveAddress : Prop :=
  ∀ (s : State) (ra : RegIdx) (imm : BitVec 13),
    ((s.effAddr ra imm).toNat : Int) = (((s.reg ra).toNat : Int) + imm.toInt) % 2 ^ 64 ∧
    (ra = 0 → (s.effAddr ra imm).toNat ≤ 4095 ∨ 2 ^ 64 - 4096 ≤ (s.effAddr ra imm).toNat)

/-- R141: LD. -/
def Obligations.LoadDoubleword : Prop :=
  (∀ (s : State) (ra rb : RegIdx) (imm : BitVec 13),
    (s.valid (s.reg ra + imm.signExtend 64) 8 .load = true →
      completesWriting (.ld ra rb imm) s rb (s.readDword (s.reg ra + imm.signExtend 64))) ∧
    (s.valid (s.reg ra + imm.signExtend 64) 8 .load = false →
      exec (.ld ra rb imm) s =
        .next { s with status := .faulted (.memoryFault .load (s.reg ra + imm.signExtend 64)) })) ∧
  (∀ (ra rb : RegIdx) (imm : BitVec 13), encodedAs (fun m => encF32I m.f32.ld rb ra imm) (.ld ra rb imm)) ∧
  OpMap32.default.ld = 4

/-- R142: SD, with its frame: the eight bytes at the effective address, in big-endian order, and nothing else but
`pc`. -/
def Obligations.StoreDoubleword : Prop :=
  (∀ (s : State) (ra rb : RegIdx) (imm : BitVec 13),
    (s.valid (s.reg ra + imm.signExtend 64) 8 .store = true →
      ∃ t, exec (.sd ra rb imm) s = .next t ∧
        (∀ i < 8, t.byteAt ((s.reg ra + imm.signExtend 64).toNat + i) =
          (s.reg rb).extractLsb' (8 * (7 - i)) 8) ∧
        keepsBytesOutside (s.reg ra + imm.signExtend 64).toNat 8 s t ∧
        keepsRegs s t ∧ t.pc = s.pc + 4 ∧ keepsRun s t ∧ keepsLaunch s t) ∧
    (s.valid (s.reg ra + imm.signExtend 64) 8 .store = false →
      exec (.sd ra rb imm) s =
        .next { s with status := .faulted (.memoryFault .store (s.reg ra + imm.signExtend 64)) })) ∧
  (∀ (ra rb : RegIdx) (imm : BitVec 13), encodedAs (fun m => encF32I m.f32.sd rb ra imm) (.sd ra rb imm)) ∧
  OpMap32.default.sd = 5

/-- R46, R141, R142 (the source's LD/SD scenario): SD, then LD into any register at the same effective address, yields
the stored value. -/
def Obligations.StoreThenLoadReturnsValue : Prop :=
  ∀ (s : State) (ra rb rc rd : RegIdx) (imm imm' : BitVec 13), s.valid (s.effAddr ra imm) 8 .store = true →
    ∃ t, exec (.sd ra rb imm) s = .next t ∧
      (t.effAddr rc imm' = s.effAddr ra imm → completesWriting (.ld rc rd imm') t rd (s.reg rb))

/-- R57, R59: a fetch from the stack region sees a stored doubleword at once, its upper half at the lower address. -/
def Obligations.FetchSeesStore : Prop :=
  ∀ (s : State) (ra rb : RegIdx) (imm : BitVec 13), s.valid (s.effAddr ra imm) 8 .store = true →
    (s.effAddr ra imm).toNat % 4 = 0 →
    s.cfg.stackBelowTop →
    ∃ t, exec (.sd ra rb imm) s = .next t ∧
      (t.setPc (s.effAddr ra imm)).fetch = .ok ((s.reg rb).extractLsb' 32 32) ∧
      (t.setPc (s.effAddr ra imm + 4)).fetch = .ok ((s.reg rb).extractLsb' 0 32)

/-! ### Control transfer -/

/-- R151 to R153: each branch completes at every state, goes to `pc` plus the raw sign-extended displacement when its
condition holds and 4 on when not, and changes nothing else. -/
def Obligations.BranchInstructions : Prop :=
  (∀ (s : State) (ra rb : RegIdx) (imm : BitVec 13),
    completesGoing (.beq ra rb imm) s (if s.reg ra = s.reg rb then s.pc + imm.signExtend 64 else s.pc + 4) ∧
    completesGoing (.bne ra rb imm) s (if s.reg ra ≠ s.reg rb then s.pc + imm.signExtend 64 else s.pc + 4) ∧
    completesGoing (.blt ra rb imm) s
      (if (s.reg rb).toInt < (s.reg ra).toInt then s.pc + imm.signExtend 64 else s.pc + 4)) ∧
  (∀ (ra rb : RegIdx) (imm : BitVec 13),
    encodedAs (fun m => encF32I m.f32.beq rb ra imm) (.beq ra rb imm) ∧
    encodedAs (fun m => encF32I m.f32.bne rb ra imm) (.bne ra rb imm) ∧
    encodedAs (fun m => encF32I m.f32.blt rb ra imm) (.blt ra rb imm)) ∧
  OpMap32.default.beq = 6 ∧ OpMap32.default.bne = 7 ∧ OpMap32.default.blt = 8

/-- R154: JAL with either opcode value writes `pc + 4` to `x[31]`, goes to `pc` plus the raw sign-extended displacement
and changes nothing else. -/
def Obligations.JumpAndLink : Prop :=
  (∀ (s : State) (form : JalForm) (imm : BitVec 23),
    ∃ t, exec (.jal form imm) s = .next t ∧ t.reg 31 = s.pc + 4 ∧ t.pc = s.pc + imm.signExtend 64 ∧
      keepsRegsBut 31 s t ∧ keepsBytes s t ∧ keepsRun s t ∧ keepsLaunch s t) ∧
  (∀ imm : BitVec 23,
    encodedAs (fun m => encF32J m.f32.jalA imm) (.jal .a imm) ∧
    encodedAs (fun m => encF32J m.f32.jalB imm) (.jal .b imm)) ∧
  OpMap32.default.jalA = 62 ∧ OpMap32.default.jalB = 63

/-- R155: JR goes to all 64 bits of `x[31]` and changes nothing else; bits 22:0 of its word are ignored. -/
def Obligations.JumpRegister : Prop :=
  (∀ s : State, completesGoing .jr s (s.reg 31)) ∧
  encodedAs (fun m => encF32C m.f32.jr) .jr ∧
  (∀ (m : OpMap) (low : BitVec 23), m.wf → decodeWord m (encF32J m.f32.jr low) = .instr .jr) ∧
  OpMap32.default.jr = 9 ∧ encF32C 9 = 0xE4800000

/-- R156: a taken branch, a JAL or a JR completes whatever the new `pc` is; the next step's fetch checks it, with the
link already written. -/
def Obligations.TargetsCheckedByNextFetch : Prop :=
  ∀ (i : Instr) (s : State), isTransfer i = true → s.status = .running →
    ∃ t, exec i s = .next t ∧ t.status = .running ∧
      (∀ form imm, i = .jal form imm → t.reg 31 = s.pc + 4) ∧
      (t.pc.toNat % 4 ≠ 0 → step t = .next { t with status := .faulted (.misalignedFetch t.pc) }) ∧
      (t.pc.toNat % 4 = 0 → t.valid t.pc 4 .fetch = false →
        step t = .next { t with status := .faulted (.memoryFault .fetch t.pc) }) ∧
      (t.pc.toNat % 4 = 0 → t.valid t.pc 4 .fetch = true → t.fetch = .ok (t.readWord t.pc))

/-- R105: the default advance of every instruction, and the cases it does not apply to. -/
def Obligations.DefaultAdvance : Prop :=
  ∀ (i : Instr) (s t : State), s.status = .running → exec i s = .next t →
    (isTransfer i = false → i ≠ .halt → (∀ c, t.status ≠ .faulted c) → t.pc = s.pc + 4) ∧
    (∀ c, t.status = .faulted c → t.pc = s.pc) ∧
    (i = .halt → t.pc = s.pc ∧ ∀ v, ∃ u, t.resume v = .next u ∧ u.pc = s.pc + 4) ∧
    (∀ ra rb imm, i = .beq ra rb imm → s.reg ra ≠ s.reg rb → t.pc = s.pc + 4) ∧
    (∀ ra rb imm, i = .bne ra rb imm → s.reg ra = s.reg rb → t.pc = s.pc + 4) ∧
    (∀ ra rb imm, i = .blt ra rb imm → (s.reg ra).toInt ≤ (s.reg rb).toInt → t.pc = s.pc + 4)

/-- R184: an aligned `pc` becomes misaligned in a step only by a taken branch or a JAL with a displacement that is not a
multiple of 4, or by a JR with such a value in `x[31]`. -/
def Obligations.MisalignedOnlyByTransfer : Prop :=
  ∀ s t : State, s.cfg.basesAligned → s.pc.toNat % 4 = 0 → step s = .next t → t.pc.toNat % 4 ≠ 0 →
    (∃ ra rb imm, (s.runs (.beq ra rb imm) ∨ s.runs (.bne ra rb imm) ∨ s.runs (.blt ra rb imm)) ∧
      t.pc = s.pc + sext13 imm ∧ imm.toNat % 4 ≠ 0) ∨
    (∃ form imm, s.runs (.jal form imm) ∧ imm.toNat % 4 ≠ 0) ∨
    (s.runs .jr ∧ (s.reg 31).toNat % 4 ≠ 0)

/-- R150, R216: a branch on one register with displacement 0 that is taken is an endless loop that changes no state. -/
def Obligations.BranchToItselfNeverStops : Prop :=
  ∀ (s : State) (ra : RegIdx), s.runs (.beq ra ra 0) → step s = .next s ∧ s.neverStops

/-! ### The control unit -/

/-- R165: HALT enters `Paused` and changes nothing else, and the engine stays there while there is no `Resume`. -/
def Obligations.HaltPauses : Prop :=
  (∀ s : State, ∃ t, exec .halt s = .next t ∧ t.status = .paused ∧ t.pc = s.pc ∧ keepsRegs s t ∧ keepsBytes s t ∧
    t.console = s.console ∧ t.inputs = s.inputs ∧ keepsLaunch s t ∧
    (s.inputs = [] → ∀ k, t.stepN k = .next t)) ∧
  encodedAs (fun m => encF32C m.f32.halt) .halt ∧
  (∀ (m : OpMap) (low : BitVec 23), m.wf → decodeWord m (encF32J m.f32.halt low) = .instr .halt) ∧
  OpMap32.default.halt = 10 ∧ encF32C 10 = 0xE5000000

/-- R166: `Resume` moves a paused engine 4 on and sets it running, changes nothing else, ignores its value, and has no
effect on an engine that is not paused. A paused engine's step delivers the host's next event
(`notes/assumptions/9.md`). -/
def Obligations.ResumeContinues : Prop :=
  (∀ (s : State) (v : Dword), s.status = .paused →
    ∃ t, s.deliver (.resume v) = .next t ∧ t.pc = s.pc + 4 ∧ t.status = .running ∧ keepsRegs s t ∧
      keepsBytes s t ∧ t.console = s.console ∧ t.inputs = s.inputs ∧ keepsLaunch s t) ∧
  (∀ (s : State) (v : Dword), s.status ≠ .paused → s.deliver (.resume v) = .next s) ∧
  (∀ (s : State) (v w : Dword), s.deliver (.resume v) = s.deliver (.resume w)) ∧
  (∀ (s : State) (v : Dword) (rest : List HostEvent), s.status = .paused → s.inputs = .resume v :: rest →
    step s = .next { s with inputs := rest, pc := s.pc + 4, status := .running })

/-- R167: SYSCALL hands the 64 bits of `x[1]` to the console output once, advances `pc` by 4 and changes nothing
else. -/
def Obligations.SyscallEmits : Prop :=
  (∀ s : State, ∃ t, exec .syscall s = .next t ∧ t.console = s.console ++ [s.reg 1] ∧ t.pc = s.pc + 4 ∧
    keepsRegs s t ∧ keepsBytes s t ∧ t.status = s.status ∧ t.inputs = s.inputs ∧ keepsLaunch s t) ∧
  encodedAs (fun m => encF32C m.f32.syscall) .syscall ∧
  (∀ (m : OpMap) (low : BitVec 23), m.wf → decodeWord m (encF32J m.f32.syscall low) = .instr .syscall) ∧
  OpMap32.default.syscall = 11 ∧ encF32C 11 = 0xE5800000

/-- R167, R9: the console output of a step is one value if it runs SYSCALL and none otherwise. -/
def Obligations.ConsoleOnlyBySyscall : Prop :=
  ∀ s t : State, step s = .next t →
    (s.runs .syscall ∧ t.console = s.console ++ [s.reg 1]) ∨ (¬ s.runs .syscall ∧ t.console = s.console)

/-- R190: `Paused` is entered only by HALT, is left only by `Resume`, and loses nothing; a word of the 16-bit family gives
the terminal fault and no pause. -/
def Obligations.PausedOnlyByHalt : Prop :=
  (∀ s t : State, s.status ≠ .paused → step s = .next t → t.status = .paused →
    s.runs .halt ∧ t = { s with status := .paused }) ∧
  (∀ s t : State, s.status = .paused → step s = .next t →
    (s.inputs = [] ∧ t = s) ∨
    (∃ v rest, s.inputs = .resume v :: rest ∧ t = { s with inputs := rest, pc := s.pc + 4, status := .running })) ∧
  (∀ (s : State) (w : Word), s.status = .running → s.fetch = .ok w → classify w = .f16 →
    step s = .next { s with status := .faulted (.decodeError w) })

/-! ### Faults -/

/-- R187: at most one fault is raised per step, the first in the order of the rule. -/
def Obligations.FaultPriority : Prop :=
  ∀ s : State, s.status = .running →
    (s.pc.toNat % 4 ≠ 0 → step s = .next { s with status := .faulted (.misalignedFetch s.pc) }) ∧
    (s.pc.toNat % 4 = 0 → s.valid s.pc 4 .fetch = false →
      step s = .next { s with status := .faulted (.memoryFault .fetch s.pc) }) ∧
    (s.pc.toNat % 4 = 0 → s.valid s.pc 4 .fetch = true →
      (decodeWord s.cfg.ops (s.readWord s.pc) = .decodeError →
        step s = .next { s with status := .faulted (.decodeError (s.readWord s.pc)) }) ∧
      (decodeWord s.cfg.ops (s.readWord s.pc) = .unknownOpcode →
        step s = .next { s with status := .faulted (.unknownOpcode (s.readWord s.pc)) }) ∧
      (∀ ra rb imm, decodeWord s.cfg.ops (s.readWord s.pc) = .instr (.ld ra rb imm) →
        s.valid (s.effAddr ra imm) 8 .load = false →
        step s = .next { s with status := .faulted (.memoryFault .load (s.effAddr ra imm)) }) ∧
      (∀ ra rb imm, decodeWord s.cfg.ops (s.readWord s.pc) = .instr (.sd ra rb imm) →
        s.valid (s.effAddr ra imm) 8 .store = false →
        step s = .next { s with status := .faulted (.memoryFault .store (s.effAddr ra imm)) }))

/-- R188: a step that raises a fault sets the run status and changes nothing else. -/
def Obligations.FaultsArePrecise : Prop :=
  ∀ (s t : State) (cause : FaultCause), s.status = .running → step s = .next t → t.status = .faulted cause →
    t = { s with status := .faulted cause }

/-- R198, R210: a faulted engine takes no step, accepts no `Resume`, no load and no reload, and keeps its cause. -/
def Obligations.FaultedIsTerminal : Prop :=
  ∀ (s : State) (cause : FaultCause), s.status = .faulted cause →
    step s = .fault (.terminated cause) ∧ (∀ v, s.deliver (.resume v) = .next s) ∧
    (∀ image t, s.deliver (.load image) ≠ .next t) ∧
    (∀ c image regs stack t, s.reload c image regs stack ≠ .next t)

/-- R197: LD raises only `MemoryFault(load, ea)`, SD only `MemoryFault(store, ea)`, and every other instruction, at every
operand, raises nothing. -/
def Obligations.WhatAnInstructionRaises : Prop :=
  ∀ (i : Instr) (s : State), (∀ c, s.status ≠ .faulted c) →
    ∃ t, exec i s = .next t ∧ ∀ c, t.status = .faulted c →
      (∃ ra rb imm, i = .ld ra rb imm ∧ c = .memoryFault .load (s.effAddr ra imm)) ∨
      (∃ ra rb imm, i = .sd ra rb imm ∧ c = .memoryFault .store (s.effAddr ra imm))

/-- R181: fetching four zero bytes, such as stack memory never written, raises `DecodeError(0x00000000)`. -/
def Obligations.ZeroWordIsDecodeError : Prop :=
  ∀ s : State, s.status = .running → s.pc.toNat % 4 = 0 → s.valid s.pc 4 .fetch = true →
    (∀ k < 4, s.byteAt (s.pc.toNat + k) = 0) →
    step s = .next { s with status := .faulted (.decodeError 0) }

/-! ### Reset, load and runs -/

/-- R210, R33: what `State.reset` holds. The values of the bases, the stack size, the unspecified registers, `pc` and the
status before the load are the model's choices (`notes/assumptions/2.md` to `5.md`); the spec's are `x[0] = 0`, `x[29]`
at the top of the stack region, and a stack of zeros. -/
def Obligations.ResetState : Prop :=
  State.reset.reg 0 = 0 ∧
  State.reset.reg 29 = State.reset.cfg.stackBase + BitVec.ofNat 64 State.reset.cfg.stackSize ∧
  (∀ a, State.reset.byteAt a = 0) ∧ State.reset.status = .notLoaded ∧ State.reset.progSize = 0 ∧
  State.reset.pc = State.reset.cfg.progBase ∧ State.reset.console = [] ∧ State.reset.cfg.wf

/-- R33, R211: after construction and the load of an image, for every value of the launch parameters, the engine is
`Running` at the image's first byte, the program region is the image, the stack is zero, `x[29]` is `SP_INIT` and the
other registers are `REG_INIT`. -/
def Obligations.LaunchState : Prop :=
  ∀ (c : Config) (image : List Byte) (rest : List HostEvent), image ≠ [] → c.fits image.length →
    ∃ t, step ((State.construct c).expecting (.load image :: rest)) = .next t ∧
      t.pc = c.progBase ∧ t.status = .running ∧ t.progSize = image.length ∧
      (∀ (i : Nat) (h : i < image.length), t.byteAt (c.progBase.toNat + i) = image[i]) ∧
      (∀ a, t.inStack a 1 = true → t.byteAt a = 0) ∧
      t.reg 0 = 0 ∧ t.reg 29 = c.spInit ∧
      (∀ r : RegIdx, r ≠ 0 → r ≠ 29 → t.reg r = c.regInit[regSlot r]) ∧
      t.cfg = c ∧ t.console = [] ∧ t.inputs = rest

/-- R212, R215: an empty image is refused, and so is a load into an engine that has a program; neither leaves a state
(`notes/assumptions/11.md`, `12.md`). -/
def Obligations.RefusedLoads : Prop :=
  (∀ (s t : State), s.load [] ≠ .next t) ∧
  (∀ (s t : State) (image : List Byte), s.status ≠ .notLoaded → s.load image ≠ .next t)

/-- R213: a fetch at the partial word at the end of an image whose length is not a multiple of 4 raises
`MemoryFault(fetch, pc)`. -/
def Obligations.PartialWordFaults : Prop :=
  ∀ s : State, s.Inv → s.status = .running → s.progSize % 4 ≠ 0 →
    s.pc.toNat = s.cfg.progBase.toNat + 4 * (s.progSize / 4) →
    step s = .next { s with status := .faulted (.memoryFault .fetch s.pc) }

/-- The invariant holds at reset. -/
def Obligations.ResetMeetsInvariant : Prop := State.reset.Inv

/-- R35, R41: every step keeps the invariant: the memory stays in canonical form and inside the two regions, the launch
parameters stay as R41 requires, and the program region exists exactly when an image has been loaded. -/
def Obligations.StepKeepsInvariant : Prop :=
  ∀ s t : State, s.Inv → step s = .next t → t.Inv

/-- R4, R35: no step changes the launch parameters, and after the load none changes the size of the program region or
goes back to the time before the load. -/
def Obligations.LaunchParametersFixed : Prop :=
  ∀ s t : State, step s = .next t →
    t.cfg = s.cfg ∧ (s.status ≠ .notLoaded → t.progSize = s.progSize ∧ t.status ≠ .notLoaded)

/-- R218: a running engine always can take a step, which is never a refusal; a paused engine moves only when the host
resumes it, whatever else the host has queued, and stays as it is while nothing is queued (`notes/assumptions/8.md`,
`9.md`). -/
def Obligations.RunningEngineAlwaysSteps : Prop :=
  (∀ s : State, s.status = .running → ∃ t, step s = .next t) ∧
  (∀ s t : State, s.status = .paused → step s = .next t →
    (s.inputs = [] ∧ t = s) ∨
    (∃ v rest, s.inputs = .resume v :: rest ∧ t = { s with inputs := rest, pc := s.pc + 4, status := .running })) ∧
  (∀ s : State, s.status = .paused → s.inputs = [] → step s = .next s)

/-- R216: with no event from the host a run either never stops or stops in exactly one way, after some number of steps:
in a pause, where it stays, or in a fault, from which it takes no step. -/
def Obligations.RunsEndByPauseOrFault : Prop :=
  ∀ s : State, s.status = .running → s.inputs = [] →
    s.neverStops ∨
    ∃ (k : Nat) (t : State), s.stepN k = .next t ∧
      (∀ j < k, ∃ u, s.stepN j = .next u ∧ u.status = .running) ∧
      ((t.status = .paused ∧ s.firstPause k t ∧ s.faultFree ∧ ∀ n, s.stepN (k + n) = .next t) ∨
        (∃ cause, t.status = .faulted cause ∧ ∀ n, s.stepN (k + 1 + n) = .fault (.terminated cause)))

/-- R34: a snapshot shows `pc`, all 32 registers and the bytes of the stack region as they are. -/
def Obligations.SnapshotShowsState : Prop :=
  ∀ s : State, s.snapshot.pc = s.pc ∧ (∀ r : RegIdx, s.snapshot.regs[r.toNat]? = some (s.reg r)) ∧
    (∀ i < s.cfg.stackSize, s.snapshot.stack[i]? = some (s.byteAt (s.cfg.stackBase.toNat + i)))

/-- R215, R211: a reload of a running or paused engine is a new launch: the image and `pc` are as after any load, the old
program is gone, and the 31 registers and the stack bytes have whatever values `regs` and `stack` give, which nothing
constrains. A reload of a faulted engine gives no state (R198, R210), and one of an engine without a program is its
first load. That the record of the console begins anew and that the new launch takes its own parameters `c` are the
model's choices (`notes/assumptions/21.md`, `22.md`). -/
def Obligations.ReloadIsNewLaunch : Prop :=
  ∀ (s : State) (c : Config) (image : List Byte) (regs : Vector Dword 31) (stack : List Byte),
    (s.status = .running ∨ s.status = .paused → c.wf → c.fits image.length → stack.length = c.stackSize →
      ∃ t, s.reload c image regs stack = .next t ∧ t.Inv ∧
        t.pc = c.progBase ∧ t.status = .running ∧ t.progSize = image.length ∧
        (∀ (i : Nat) (h : i < image.length), t.byteAt (c.progBase.toNat + i) = image[i]) ∧
        (∀ (i : Nat) (h : i < stack.length), t.byteAt (c.stackBase.toNat + i) = stack[i]) ∧
        t.reg 0 = 0 ∧ (∀ r : RegIdx, r ≠ 0 → t.reg r = regs[regSlot r]) ∧
        t.cfg = c ∧ t.console = [] ∧ t.inputs = s.inputs) ∧
    (s.status = .notLoaded → s.reload c image regs stack = s.load image) ∧
    (∀ cause t, s.status = .faulted cause → s.reload c image regs stack ≠ .next t)

/-- R198, R210: the recovery from a fault is construction and load anew, for every value of the launch parameters: what
the faulted engine held is gone, `x[29]` is `SP_INIT`, the other registers are `REG_INIT`, the stack is zero, and the
engine runs at the image's first byte. No event and no reload gives a faulted engine another status. -/
def Obligations.RecoveryIsConstructionAndLoad : Prop :=
  (∀ (c : Config) (image : List Byte), c.wf → c.fits image.length →
    ∃ t, State.launch c image = .next t ∧ t.Inv ∧
      t.pc = c.progBase ∧ t.status = .running ∧ t.progSize = image.length ∧
      (∀ (i : Nat) (h : i < image.length), t.byteAt (c.progBase.toNat + i) = image[i]) ∧
      (∀ a, t.inStack a 1 = true → t.byteAt a = 0) ∧
      t.reg 0 = 0 ∧ t.reg 29 = c.spInit ∧ (∀ r : RegIdx, r ≠ 0 → r ≠ 29 → t.reg r = c.regInit[regSlot r]) ∧
      t.cfg = c) ∧
  (∀ (s : State) (cause : FaultCause), s.status = .faulted cause →
    (∀ e t, s.deliver e = .next t → t = s) ∧
    (∀ c image regs stack t, s.reload c image regs stack ≠ .next t))
end

