-- ==== Sys2Proof/Laws/Decode.lean ====
section
/-! SUPPORT. The fields of the words the encoding functions build (spec R72 to R76, R84), and the family each is in. -/

namespace Sys2Proof

section F24
variable (op : Op) (rc ra rb : RegIdx)

theorem getLsbD_encF24 (i : Nat) : (encF24 op rc ra rb).getLsbD i =
    if i < 8 then (0#8).getLsbD i else
    if i < 13 then rc.getLsbD (i - 8) else
    if i < 18 then rb.getLsbD (i - 13) else
    if i < 23 then ra.getLsbD (i - 18) else
    if i < 29 then op.getLsbD (i - 23) else
    (0b110#3).getLsbD (i - 29) := by
  change (0b110#3 ++ op ++ ra ++ rb ++ rc ++ 0#8 : BitVec (3 + 6 + 5 + 5 + 5 + 8)).getLsbD i = _
  simp only [BitVec.getLsbD_append, Nat.sub_sub]
  split_ifs <;> first | rfl | omega

@[simp] theorem famField_encF24 : famField (encF24 op rc ra rb) = 0b110#3 := by
  apply BitVec.eq_of_getLsbD_eq
  intro i hi
  simp only [famField, BitVec.getLsbD_extractLsb', hi, decide_true, Bool.true_and, getLsbD_encF24]
  split_ifs <;> first | omega | simp

@[simp] theorem opField_encF24 : opField (encF24 op rc ra rb) = op := by
  apply BitVec.eq_of_getLsbD_eq
  intro i hi
  simp only [opField, BitVec.getLsbD_extractLsb', hi, decide_true, Bool.true_and, getLsbD_encF24]
  split_ifs <;> first | omega | simp

@[simp] theorem raField_encF24 : raField (encF24 op rc ra rb) = ra := by
  apply BitVec.eq_of_getLsbD_eq
  intro i hi
  simp only [raField, BitVec.getLsbD_extractLsb', hi, decide_true, Bool.true_and, getLsbD_encF24]
  split_ifs <;> first | omega | simp

@[simp] theorem rbField_encF24 : rbField (encF24 op rc ra rb) = rb := by
  apply BitVec.eq_of_getLsbD_eq
  intro i hi
  simp only [rbField, BitVec.getLsbD_extractLsb', hi, decide_true, Bool.true_and, getLsbD_encF24]
  split_ifs <;> first | omega | simp

@[simp] theorem rcField_encF24 : rcField (encF24 op rc ra rb) = rc := by
  apply BitVec.eq_of_getLsbD_eq
  intro i hi
  simp only [rcField, BitVec.getLsbD_extractLsb', hi, decide_true, Bool.true_and, getLsbD_encF24]
  split_ifs <;> first | omega | simp

@[simp] theorem classify_encF24 : classify (encF24 op rc ra rb) = .f24 := by simp [classify]

end F24

section F32I
variable (op : Op) (rb ra : RegIdx) (imm : BitVec 13)

theorem getLsbD_encF32I (i : Nat) : (encF32I op rb ra imm).getLsbD i =
    if i < 13 then imm.getLsbD i else
    if i < 18 then rb.getLsbD (i - 13) else
    if i < 23 then ra.getLsbD (i - 18) else
    if i < 29 then op.getLsbD (i - 23) else
    (0b111#3).getLsbD (i - 29) := by
  change (0b111#3 ++ op ++ ra ++ rb ++ imm : BitVec (3 + 6 + 5 + 5 + 13)).getLsbD i = _
  simp only [BitVec.getLsbD_append, Nat.sub_sub]
  split_ifs <;> first | rfl | omega

@[simp] theorem famField_encF32I : famField (encF32I op rb ra imm) = 0b111#3 := by
  apply BitVec.eq_of_getLsbD_eq
  intro i hi
  simp only [famField, BitVec.getLsbD_extractLsb', hi, decide_true, Bool.true_and, getLsbD_encF32I]
  split_ifs <;> first | omega | simp

@[simp] theorem opField_encF32I : opField (encF32I op rb ra imm) = op := by
  apply BitVec.eq_of_getLsbD_eq
  intro i hi
  simp only [opField, BitVec.getLsbD_extractLsb', hi, decide_true, Bool.true_and, getLsbD_encF32I]
  split_ifs <;> first | omega | simp

@[simp] theorem raField_encF32I : raField (encF32I op rb ra imm) = ra := by
  apply BitVec.eq_of_getLsbD_eq
  intro i hi
  simp only [raField, BitVec.getLsbD_extractLsb', hi, decide_true, Bool.true_and, getLsbD_encF32I]
  split_ifs <;> first | omega | simp

@[simp] theorem rbField_encF32I : rbField (encF32I op rb ra imm) = rb := by
  apply BitVec.eq_of_getLsbD_eq
  intro i hi
  simp only [rbField, BitVec.getLsbD_extractLsb', hi, decide_true, Bool.true_and, getLsbD_encF32I]
  split_ifs <;> first | omega | simp

@[simp] theorem imm13Field_encF32I : imm13Field (encF32I op rb ra imm) = imm := by
  apply BitVec.eq_of_getLsbD_eq
  intro i hi
  simp only [imm13Field, BitVec.getLsbD_extractLsb', hi, decide_true, Bool.true_and, getLsbD_encF32I]
  split_ifs <;> first | omega | simp

@[simp] theorem classify_encF32I : classify (encF32I op rb ra imm) = .f32 := by simp [classify]

end F32I

section F32J
variable (op : Op) (imm : BitVec 23)

theorem getLsbD_encF32J (i : Nat) : (encF32J op imm).getLsbD i =
    if i < 23 then imm.getLsbD i else
    if i < 29 then op.getLsbD (i - 23) else
    (0b111#3).getLsbD (i - 29) := by
  change (0b111#3 ++ op ++ imm : BitVec (3 + 6 + 23)).getLsbD i = _
  simp only [BitVec.getLsbD_append, Nat.sub_sub]
  split_ifs <;> first | rfl | omega

@[simp] theorem famField_encF32J : famField (encF32J op imm) = 0b111#3 := by
  apply BitVec.eq_of_getLsbD_eq
  intro i hi
  simp only [famField, BitVec.getLsbD_extractLsb', hi, decide_true, Bool.true_and, getLsbD_encF32J]
  split_ifs <;> first | omega | simp

@[simp] theorem opField_encF32J : opField (encF32J op imm) = op := by
  apply BitVec.eq_of_getLsbD_eq
  intro i hi
  simp only [opField, BitVec.getLsbD_extractLsb', hi, decide_true, Bool.true_and, getLsbD_encF32J]
  split_ifs <;> first | omega | simp

@[simp] theorem imm23Field_encF32J : imm23Field (encF32J op imm) = imm := by
  apply BitVec.eq_of_getLsbD_eq
  intro i hi
  simp only [imm23Field, BitVec.getLsbD_extractLsb', hi, decide_true, Bool.true_and, getLsbD_encF32J]
  split_ifs <;> first | omega | simp

@[simp] theorem classify_encF32J : classify (encF32J op imm) = .f32 := by simp [classify]

end F32J

section F32C
variable (op : Op)

theorem getLsbD_encF32C (i : Nat) : (encF32C op).getLsbD i =
    if i < 23 then (0#23).getLsbD i else
    if i < 29 then op.getLsbD (i - 23) else
    (0b111#3).getLsbD (i - 29) := by
  change (0b111#3 ++ op ++ 0#23 : BitVec (3 + 6 + 23)).getLsbD i = _
  simp only [BitVec.getLsbD_append, Nat.sub_sub]
  split_ifs <;> first | rfl | omega

@[simp] theorem famField_encF32C : famField (encF32C op) = 0b111#3 := by
  apply BitVec.eq_of_getLsbD_eq
  intro i hi
  simp only [famField, BitVec.getLsbD_extractLsb', hi, decide_true, Bool.true_and, getLsbD_encF32C]
  split_ifs <;> first | omega | simp

@[simp] theorem opField_encF32C : opField (encF32C op) = op := by
  apply BitVec.eq_of_getLsbD_eq
  intro i hi
  simp only [opField, BitVec.getLsbD_extractLsb', hi, decide_true, Bool.true_and, getLsbD_encF32C]
  split_ifs <;> first | omega | simp

@[simp] theorem classify_encF32C : classify (encF32C op) = .f32 := by simp [classify]

end F32C

/-! ### Dispatch -/

theorem ite_eq_cases {α : Type} {p : Prop} [Decidable p] {a b c : α} (h : (if p then a else b) = c) :
    (p ∧ a = c) ∨ (¬ p ∧ b = c) := by
  split at h
  next hp => exact .inl ⟨hp, h⟩
  next hp => exact .inr ⟨hp, h⟩

/-- A word dispatched to an instruction has the opcode of that instruction, and its operands are the word's fields. -/
theorem dispatch24_instr {m : OpMap24} {w : Word} {i : Instr} (h : dispatch24 m w = .instr i) :
    (opField w = m.add ∧ i = .add (raField w) (rbField w) (rcField w)) ∨
    (opField w = m.sub ∧ i = .sub (raField w) (rbField w) (rcField w)) ∨
    (opField w = m.and ∧ i = .and (raField w) (rbField w) (rcField w)) ∨
    (opField w = m.or ∧ i = .or (raField w) (rbField w) (rcField w)) ∨
    (opField w = m.xor ∧ i = .xor (raField w) (rbField w) (rcField w)) := by
  unfold dispatch24 at h
  dsimp only at h
  rcases ite_eq_cases h with ⟨hc, h⟩ | ⟨_, h⟩
  · exact (.inl ⟨hc, (Decoded.instr.inj h).symm⟩)
  rcases ite_eq_cases h with ⟨hc, h⟩ | ⟨_, h⟩
  · exact (.inr (.inl ⟨hc, (Decoded.instr.inj h).symm⟩))
  rcases ite_eq_cases h with ⟨hc, h⟩ | ⟨_, h⟩
  · exact (.inr (.inr (.inl ⟨hc, (Decoded.instr.inj h).symm⟩)))
  rcases ite_eq_cases h with ⟨hc, h⟩ | ⟨_, h⟩
  · exact (.inr (.inr (.inr (.inl ⟨hc, (Decoded.instr.inj h).symm⟩))))
  rcases ite_eq_cases h with ⟨hc, h⟩ | ⟨_, h⟩
  · exact (.inr (.inr (.inr (.inr ⟨hc, (Decoded.instr.inj h).symm⟩))))
  cases h

/-- A word dispatched to an instruction has the opcode of that instruction, and its operands are the word's fields. -/
theorem dispatch32_instr {m : OpMap32} {w : Word} {i : Instr} (h : dispatch32 m w = .instr i) :
    (opField w = m.jalA ∧ i = .jal .a (imm23Field w)) ∨
    (opField w = m.jalB ∧ i = .jal .b (imm23Field w)) ∨
    (opField w = m.addi ∧ i = .addi (raField w) (rbField w) (imm13Field w)) ∨
    (opField w = m.andi ∧ i = .andi (raField w) (rbField w) (imm13Field w)) ∨
    (opField w = m.ori ∧ i = .ori (raField w) (rbField w) (imm13Field w)) ∨
    (opField w = m.xori ∧ i = .xori (raField w) (rbField w) (imm13Field w)) ∨
    (opField w = m.ld ∧ i = .ld (raField w) (rbField w) (imm13Field w)) ∨
    (opField w = m.sd ∧ i = .sd (raField w) (rbField w) (imm13Field w)) ∨
    (opField w = m.beq ∧ i = .beq (raField w) (rbField w) (imm13Field w)) ∨
    (opField w = m.bne ∧ i = .bne (raField w) (rbField w) (imm13Field w)) ∨
    (opField w = m.blt ∧ i = .blt (raField w) (rbField w) (imm13Field w)) ∨
    (opField w = m.jr ∧ i = .jr) ∨
    (opField w = m.halt ∧ i = .halt) ∨
    (opField w = m.syscall ∧ i = .syscall) := by
  unfold dispatch32 at h
  dsimp only at h
  rcases ite_eq_cases h with ⟨hc, h⟩ | ⟨_, h⟩
  · exact (.inl ⟨hc, (Decoded.instr.inj h).symm⟩)
  rcases ite_eq_cases h with ⟨hc, h⟩ | ⟨_, h⟩
  · exact (.inr (.inl ⟨hc, (Decoded.instr.inj h).symm⟩))
  rcases ite_eq_cases h with ⟨hc, h⟩ | ⟨_, h⟩
  · exact (.inr (.inr (.inl ⟨hc, (Decoded.instr.inj h).symm⟩)))
  rcases ite_eq_cases h with ⟨hc, h⟩ | ⟨_, h⟩
  · exact (.inr (.inr (.inr (.inl ⟨hc, (Decoded.instr.inj h).symm⟩))))
  rcases ite_eq_cases h with ⟨hc, h⟩ | ⟨_, h⟩
  · exact (.inr (.inr (.inr (.inr (.inl ⟨hc, (Decoded.instr.inj h).symm⟩)))))
  rcases ite_eq_cases h with ⟨hc, h⟩ | ⟨_, h⟩
  · exact (.inr (.inr (.inr (.inr (.inr (.inl ⟨hc, (Decoded.instr.inj h).symm⟩))))))
  rcases ite_eq_cases h with ⟨hc, h⟩ | ⟨_, h⟩
  · exact (.inr (.inr (.inr (.inr (.inr (.inr (.inl ⟨hc, (Decoded.instr.inj h).symm⟩)))))))
  rcases ite_eq_cases h with ⟨hc, h⟩ | ⟨_, h⟩
  · exact (.inr (.inr (.inr (.inr (.inr (.inr (.inr (.inl ⟨hc, (Decoded.instr.inj h).symm⟩))))))))
  rcases ite_eq_cases h with ⟨hc, h⟩ | ⟨_, h⟩
  · exact (.inr (.inr (.inr (.inr (.inr (.inr (.inr (.inr (.inl ⟨hc, (Decoded.instr.inj h).symm⟩)))))))))
  rcases ite_eq_cases h with ⟨hc, h⟩ | ⟨_, h⟩
  · exact (.inr (.inr (.inr (.inr (.inr (.inr (.inr (.inr (.inr (.inl ⟨hc, (Decoded.instr.inj h).symm⟩))))))))))
  rcases ite_eq_cases h with ⟨hc, h⟩ | ⟨_, h⟩
  · exact (.inr (.inr (.inr (.inr (.inr (.inr (.inr (.inr (.inr (.inr (.inl ⟨hc, (Decoded.instr.inj h).symm⟩)))))))))))
  rcases ite_eq_cases h with ⟨hc, h⟩ | ⟨_, h⟩
  · exact (.inr (.inr (.inr (.inr (.inr (.inr (.inr (.inr (.inr (.inr (.inr (.inl ⟨hc, (Decoded.instr.inj h).symm⟩))))))))))))
  rcases ite_eq_cases h with ⟨hc, h⟩ | ⟨_, h⟩
  · exact (.inr (.inr (.inr (.inr (.inr (.inr (.inr (.inr (.inr (.inr (.inr (.inr (.inl ⟨hc, (Decoded.instr.inj h).symm⟩)))))))))))))
  rcases ite_eq_cases h with ⟨hc, h⟩ | ⟨_, h⟩
  · exact (.inr (.inr (.inr (.inr (.inr (.inr (.inr (.inr (.inr (.inr (.inr (.inr (.inr ⟨hc, (Decoded.instr.inj h).symm⟩)))))))))))))
  cases h

/-- A word is not dispatched when its opcode is in no place of the map, and only then. -/
theorem dispatch24_unknown {m : OpMap24} {w : Word} :
    dispatch24 m w = .unknownOpcode ↔ opField w ∉ m.values := by
  constructor
  · intro h hmem
    simp only [OpMap24.values, List.mem_cons, List.not_mem_nil, or_false] at hmem
    unfold dispatch24 at h
    dsimp only at h
    rcases ite_eq_cases h with ⟨_, h⟩ | ⟨h_add, h⟩
    · cases h
    rcases ite_eq_cases h with ⟨_, h⟩ | ⟨h_sub, h⟩
    · cases h
    rcases ite_eq_cases h with ⟨_, h⟩ | ⟨h_and, h⟩
    · cases h
    rcases ite_eq_cases h with ⟨_, h⟩ | ⟨h_or, h⟩
    · cases h
    rcases ite_eq_cases h with ⟨_, h⟩ | ⟨h_xor, h⟩
    · cases h
    simp only [h_add, h_sub, h_and, h_or, h_xor, or_self] at hmem
  · intro h
    simp only [OpMap24.values, List.mem_cons, List.not_mem_nil, or_false, not_or] at h
    obtain ⟨h_add, h_sub, h_and, h_or, h_xor⟩ := h
    unfold dispatch24
    dsimp only
    rw [if_neg h_add, if_neg h_sub, if_neg h_and, if_neg h_or, if_neg h_xor]

/-- A word is not dispatched when its opcode is in no place of the map, and only then. -/
theorem dispatch32_unknown {m : OpMap32} {w : Word} :
    dispatch32 m w = .unknownOpcode ↔ opField w ∉ m.values := by
  constructor
  · intro h hmem
    simp only [OpMap32.values, List.mem_cons, List.not_mem_nil, or_false] at hmem
    unfold dispatch32 at h
    dsimp only at h
    rcases ite_eq_cases h with ⟨_, h⟩ | ⟨h_jalA, h⟩
    · cases h
    rcases ite_eq_cases h with ⟨_, h⟩ | ⟨h_jalB, h⟩
    · cases h
    rcases ite_eq_cases h with ⟨_, h⟩ | ⟨h_addi, h⟩
    · cases h
    rcases ite_eq_cases h with ⟨_, h⟩ | ⟨h_andi, h⟩
    · cases h
    rcases ite_eq_cases h with ⟨_, h⟩ | ⟨h_ori, h⟩
    · cases h
    rcases ite_eq_cases h with ⟨_, h⟩ | ⟨h_xori, h⟩
    · cases h
    rcases ite_eq_cases h with ⟨_, h⟩ | ⟨h_ld, h⟩
    · cases h
    rcases ite_eq_cases h with ⟨_, h⟩ | ⟨h_sd, h⟩
    · cases h
    rcases ite_eq_cases h with ⟨_, h⟩ | ⟨h_beq, h⟩
    · cases h
    rcases ite_eq_cases h with ⟨_, h⟩ | ⟨h_bne, h⟩
    · cases h
    rcases ite_eq_cases h with ⟨_, h⟩ | ⟨h_blt, h⟩
    · cases h
    rcases ite_eq_cases h with ⟨_, h⟩ | ⟨h_jr, h⟩
    · cases h
    rcases ite_eq_cases h with ⟨_, h⟩ | ⟨h_halt, h⟩
    · cases h
    rcases ite_eq_cases h with ⟨_, h⟩ | ⟨h_syscall, h⟩
    · cases h
    simp only [h_jalA, h_jalB, h_addi, h_andi, h_ori, h_xori, h_ld, h_sd, h_beq, h_bne, h_blt, h_jr, h_halt, h_syscall, or_self] at hmem
  · intro h
    simp only [OpMap32.values, List.mem_cons, List.not_mem_nil, or_false, not_or] at h
    obtain ⟨h_addi, h_andi, h_ori, h_xori, h_ld, h_sd, h_beq, h_bne, h_blt, h_jr, h_halt, h_syscall, h_jalA, h_jalB⟩ := h
    unfold dispatch32
    dsimp only
    rw [if_neg h_jalA, if_neg h_jalB, if_neg h_addi, if_neg h_andi, if_neg h_ori, if_neg h_xori, if_neg h_ld, if_neg h_sd, if_neg h_beq, if_neg h_bne, if_neg h_blt, if_neg h_jr, if_neg h_halt, if_neg h_syscall]

/-- The family field of a word, by what the classifier says of it (R71). -/
theorem classify_cases (w : Word) :
    (classify w = .f24 ∧ famField w = 0b110#3) ∨ (classify w = .f32 ∧ famField w = 0b111#3) ∨
      (classify w = .f16 ∧ famField w ≠ 0b110#3 ∧ famField w ≠ 0b111#3) := by
  unfold classify
  by_cases h : famField w = 0b110#3
  · simp [h]
  · by_cases h' : famField w = 0b111#3
    · simp [h']
    · simp [h, h']

/-- A word that decodes to an instruction is in a supported family, whose dispatch gives the instruction. -/
theorem decodeWord_instr {m : OpMap} {w : Word} {i : Instr} (h : decodeWord m w = .instr i) :
    (classify w = .f24 ∧ famField w = 0b110#3 ∧ dispatch24 m.f24 w = .instr i) ∨
      (classify w = .f32 ∧ famField w = 0b111#3 ∧ dispatch32 m.f32 w = .instr i) := by
  unfold decodeWord at h
  rcases classify_cases w with ⟨hc, hf⟩ | ⟨hc, hf⟩ | ⟨hc, _⟩
  · exact .inl ⟨hc, hf, by simpa only [hc] using h⟩
  · exact .inr ⟨hc, hf, by simpa only [hc] using h⟩
  · simp [hc] at h

/-! ### Bytes of a word -/

/-- The bytes of a word, put together again, are the word. -/
@[simp] theorem wordOfBytes_bytes (w : Word) :
    wordOfBytes (w.extractLsb' 24 8) (w.extractLsb' 16 8) (w.extractLsb' 8 8) (w.extractLsb' 0 8) = w := by
  apply BitVec.eq_of_getLsbD_eq
  intro i hi
  change (w.extractLsb' 24 8 ++ w.extractLsb' 16 8 ++ w.extractLsb' 8 8 ++ w.extractLsb' 0 8 :
    BitVec (8 + 8 + 8 + 8)).getLsbD i = _
  simp only [BitVec.getLsbD_append, BitVec.getLsbD_extractLsb', Nat.sub_sub]
  split_ifs <;> (rw [decide_eq_true (by omega), Bool.true_and]; congr 1; omega)

/-- Decoding the bytes of a word at the head of a byte string is decoding the word. -/
@[simp] theorem decodeBytes_wordBytes (m : OpMap) (w : Word) (rest : List Byte) :
    decodeBytes m (wordBytes w ++ rest) = .word (decodeWord m w) rest := by
  simp [wordBytes, decodeBytes]

end Sys2Proof
end

