-- ==== Sys2Proof/Laws/Memory.lean ====
section
/-! SUPPORT. What the memory operations do: the byte read after each, and that each keeps the canonical form. -/

namespace Sys2Proof.Machine

@[simp] theorem byteAt_nil (a : Nat) : Memory.byteAt [] a = unlistedByte := rfl

theorem byteAt_cons (c : Host.Cell) (m : Memory) (a : Nat) :
    Memory.byteAt (c :: m) a = if c.1 = a then c.2 else Memory.byteAt m a := rfl

theorem byteAt_unlisted {m : Memory} {a : Nat} (h : ∀ c ∈ m, c.1 ≠ a) : m.byteAt a = unlistedByte := by
  induction m with
  | nil => rfl
  | cons c rest ih =>
    simp only [List.forall_mem_cons] at h
    rw [byteAt_cons, if_neg h.1, ih h.2]

theorem byteAt_filter (m : Memory) (a b : Nat) :
    Memory.byteAt (m.filter (fun c => c.1 ≠ a)) b = if b = a then unlistedByte else m.byteAt b := by
  induction m with
  | nil => simp
  | cons c rest ih =>
    rw [List.filter_cons]
    by_cases hc : c.1 = a
    · simp only [hc, ne_eq, not_true_eq_false, decide_false, Bool.false_eq_true, if_false]
      rw [ih, byteAt_cons]
      by_cases hb : b = a
      · simp [hb]
      · simp [hb, hc, Ne.symm hb]
    · simp only [ne_eq, hc, not_false_eq_true, decide_true, if_true]
      rw [byteAt_cons, byteAt_cons, ih]
      by_cases hb : b = a
      · subst hb; simp [hc]
      · simp [hb]

theorem mem_insert {c x : Host.Cell} {m : Memory} : x ∈ Memory.insert c m ↔ x = c ∨ x ∈ m := by
  induction m with
  | nil => simp [Memory.insert]
  | cons d rest ih =>
    simp only [Memory.insert]
    split
    · simp
    · simp only [List.mem_cons, ih]; tauto

theorem byteAt_insert {c : Host.Cell} {m : Memory} (h : ∀ d ∈ m, d.1 ≠ c.1) (b : Nat) :
    (Memory.insert c m).byteAt b = if b = c.1 then c.2 else m.byteAt b := by
  induction m with
  | nil => simp [Memory.insert, byteAt_cons, eq_comm]
  | cons d rest ih =>
    simp only [List.forall_mem_cons] at h
    simp only [Memory.insert]
    split
    · rw [byteAt_cons]; simp [eq_comm]
    · rw [byteAt_cons, ih h.2, byteAt_cons]
      by_cases hb : b = c.1
      · subst hb; simp [h.1]
      · simp [hb]

theorem pairwise_insert {c : Host.Cell} {m : Memory} (h : ∀ d ∈ m, d.1 ≠ c.1)
    (hm : m.Pairwise (fun x y => x.1 < y.1)) : (Memory.insert c m).Pairwise (fun x y => x.1 < y.1) := by
  induction m with
  | nil => simp [Memory.insert]
  | cons d rest ih =>
    simp only [List.forall_mem_cons] at h
    obtain ⟨hd, hrest⟩ := List.pairwise_cons.1 hm
    simp only [Memory.insert]
    split
    next hlt =>
      refine List.pairwise_cons.2 ⟨fun x hx => ?_, hm⟩
      rcases List.mem_cons.1 hx with rfl | hx
      · exact hlt
      · exact hlt.trans (hd x hx)
    next hge =>
      refine List.pairwise_cons.2 ⟨fun x hx => ?_, ih h.2 hrest⟩
      rcases mem_insert.1 hx with rfl | hx
      · have := h.1; omega
      · exact hd x hx

theorem filter_no_address (m : Memory) (a : Nat) : ∀ c ∈ m.filter (fun c => c.1 ≠ a), c.1 ≠ a := by
  intro c hc
  simpa using (List.mem_filter.1 hc).2

/-- A read after the write of one byte. -/
@[simp] theorem byteAt_setByte (m : Memory) (a b : Nat) (v : Byte) :
    (m.setByte a v).byteAt b = if b = a then v else m.byteAt b := by
  simp only [Memory.setByte]
  split
  next hv => rw [byteAt_filter, hv]
  next =>
    rw [byteAt_insert (filter_no_address m a), byteAt_filter]
    by_cases hb : b = a <;> simp [hb]

/-- Every cell of a memory after the write of one byte was there before or is that byte. -/
theorem mem_setByte {m : Memory} {a : Nat} {v : Byte} {c : Host.Cell} (h : c ∈ m.setByte a v) :
    c ∈ m ∨ c = (a, v) := by
  simp only [Memory.setByte] at h
  split at h
  · exact .inl (List.mem_filter.1 h).1
  · rcases mem_insert.1 h with h | h
    · exact .inr h
    · exact .inl (List.mem_filter.1 h).1

/-- The write of one byte keeps the canonical form. -/
theorem setByte_wf {m : Memory} (h : m.wf) (a : Nat) (v : Byte) : (m.setByte a v).wf := by
  have hf : (m.filter (fun c => c.1 ≠ a)).Pairwise (fun x y => x.1 < y.1) := h.1.filter _
  have hz : ∀ c ∈ m.filter (fun c => c.1 ≠ a), c.2 ≠ unlistedByte := fun c hc => h.2 c (List.mem_filter.1 hc).1
  simp only [Memory.setByte]
  split
  · exact ⟨hf, hz⟩
  next hv =>
    refine ⟨pairwise_insert (filter_no_address m a) hf, fun c hc => ?_⟩
    rcases mem_insert.1 hc with rfl | hc
    · exact hv
    · exact hz c hc

@[simp] theorem write_zero (m : Memory) (a : Nat) (v : BitVec (8 * 0)) : m.write a 0 v = m := rfl

theorem write_succ (m : Memory) (a n : Nat) (v : BitVec (8 * (n + 1))) :
    m.write a (n + 1) v = (m.write a n (v.extractLsb' 8 (8 * n))).setByte (a + n) (v.extractLsb' 0 8) := rfl

theorem read_succ (m : Memory) (a n : Nat) : m.read a (n + 1) = m.read a n ++ m.byteAt (a + n) := rfl

/-- Memories that agree on `n` bytes give the same value there. -/
theorem read_congr {m m' : Memory} {a n : Nat} (h : ∀ i < n, m.byteAt (a + i) = m'.byteAt (a + i)) :
    m.read a n = m'.read a n := by
  induction n with
  | zero => rfl
  | succ n ih => rw [read_succ, read_succ, ih (fun i hi => h i (by omega)), h n (by omega)]

/-- A wide write leaves every byte outside its `n` bytes alone. -/
theorem byteAt_write_outside {m : Memory} {a n b : Nat} {v : BitVec (8 * n)} (h : b < a ∨ a + n ≤ b) :
    (m.write a n v).byteAt b = m.byteAt b := by
  induction n with
  | zero => rfl
  | succ n ih =>
    rw [write_succ, byteAt_setByte, if_neg (by omega), ih (by omega)]

/-- Every cell after a wide write was there before or lies in its `n` bytes. -/
theorem mem_write {m : Memory} {a n : Nat} {v : BitVec (8 * n)} {c : Host.Cell} (h : c ∈ m.write a n v) :
    c ∈ m ∨ (a ≤ c.1 ∧ c.1 < a + n) := by
  induction n with
  | zero => exact .inl h
  | succ n ih =>
    rcases mem_setByte (write_succ m a n v ▸ h) with h | rfl
    · rcases ih h with h | h
      · exact .inl h
      · exact .inr ⟨h.1, by omega⟩
    · exact .inr ⟨by simp, by simp⟩

/-- A wide write keeps the canonical form. -/
theorem write_wf {m : Memory} (h : m.wf) (a n : Nat) (v : BitVec (8 * n)) : (m.write a n v).wf := by
  induction n with
  | zero => exact h
  | succ n ih => exact setByte_wf (ih _) _ _

/-- The loader's copy leaves every byte outside the list's addresses alone. -/
theorem byteAt_writeList_outside {m : Memory} {a b : Nat} {l : List Byte} (h : b < a ∨ a + l.length ≤ b) :
    (m.writeList a l).byteAt b = m.byteAt b := by
  induction l generalizing m a with
  | nil => rfl
  | cons x xs ih =>
    simp only [List.length_cons] at h
    rw [Memory.writeList, ih (by omega), byteAt_setByte, if_neg (by omega)]

/-- The loader's copy puts the list's bytes at rising addresses. -/
theorem byteAt_writeList {m : Memory} {a i : Nat} {l : List Byte} (h : i < l.length) :
    (m.writeList a l).byteAt (a + i) = l[i] := by
  induction l generalizing m a i with
  | nil => simp at h
  | cons x xs ih =>
    rw [Memory.writeList]
    cases i with
    | zero => rw [byteAt_writeList_outside (by omega)]; simp
    | succ i =>
      simp only [List.length_cons] at h
      have := ih (m := m.setByte a x) (a := a + 1) (i := i) (by omega)
      rwa [show a + 1 + i = a + (i + 1) by omega] at this

/-- Every cell after the loader's copy was there before or lies at one of the list's addresses. -/
theorem mem_writeList {m : Memory} {a : Nat} {l : List Byte} {c : Host.Cell} (h : c ∈ m.writeList a l) :
    c ∈ m ∨ (a ≤ c.1 ∧ c.1 < a + l.length) := by
  induction l generalizing m a with
  | nil => exact .inl h
  | cons x xs ih =>
    simp only [List.length_cons]
    rcases ih h with h | h
    · rcases mem_setByte h with h | rfl
      · exact .inl h
      · exact .inr ⟨by simp, by simp⟩
    · exact .inr ⟨by omega, by omega⟩

/-- The loader's copy keeps the canonical form. -/
theorem writeList_wf {m : Memory} (h : m.wf) (a : Nat) (l : List Byte) : (m.writeList a l).wf := by
  induction l generalizing m a with
  | nil => exact h
  | cons x xs ih => exact ih (setByte_wf h a x) (a + 1)

end Sys2Proof.Machine
end

