-- ==== Sys2Proof/Laws/State.lean ====
section
/-! SUPPORT. One lemma per field per update of the state, so that no later proof unfolds a record update. -/

namespace Sys2Proof.Machine

/-! ### Registers -/

theorem regSlot_ne {q r : RegIdx} (hq : q ≠ 0) (hr : r ≠ 0) (h : q ≠ r) : regSlot q ≠ regSlot r := by
  intro he
  have h1 : q.toNat ≠ 0 := fun h0 => hq (BitVec.eq_of_toNat_eq h0)
  have h2 : r.toNat ≠ 0 := fun h0 => hr (BitVec.eq_of_toNat_eq h0)
  have h3 : q.toNat - 1 = r.toNat - 1 := congrArg Fin.val he
  exact h (BitVec.eq_of_toNat_eq (by omega))

/-- Register 0 reads 0 (R21). -/
@[simp] theorem reg_zero (s : State) : s.reg 0#5 = 0#64 := rfl

/-- A write to register 0 is discarded (R21). -/
@[simp] theorem setReg_zero (s : State) (v : Dword) : s.setReg 0#5 v = s := rfl

theorem reg_eq {s : State} {r : RegIdx} (h : r ≠ 0#5) : s.reg r = s.regs[regSlot r] := if_neg h

theorem setReg_eq {s : State} {r : RegIdx} {v : Dword} (h : r ≠ 0#5) :
    s.setReg r v = { s with regs := s.regs.set (regSlot r) v } := if_neg h

/-- A register reads as last written, register 0 as 0. -/
@[simp] theorem reg_setReg_same (s : State) (r : RegIdx) (v : Dword) :
    (s.setReg r v).reg r = if r = 0#5 then 0#64 else v := by
  by_cases hr : r = 0#5
  · subst hr; rfl
  · rw [setReg_eq hr, reg_eq hr, if_neg hr]
    simp

/-- A register write leaves every other register alone. -/
theorem reg_setReg_ne (s : State) {q r : RegIdx} (v : Dword) (h : q ≠ r) : (s.setReg r v).reg q = s.reg q := by
  by_cases hr : r = 0#5
  · subst hr; rfl
  · by_cases hq : q = 0#5
    · subst hq; rfl
    · have hne : (regSlot r).val ≠ (regSlot q).val := fun he => regSlot_ne hq hr h (Fin.ext he.symm)
      rw [setReg_eq hr, reg_eq hq, reg_eq hq]
      simp [Vector.getElem_set_ne, hne]

@[simp] theorem setReg_pc (s : State) (r : RegIdx) (v : Dword) : (s.setReg r v).pc = s.pc := by
  unfold State.setReg; split <;> rfl
@[simp] theorem setReg_cfg (s : State) (r : RegIdx) (v : Dword) : (s.setReg r v).cfg = s.cfg := by
  unfold State.setReg; split <;> rfl
@[simp] theorem setReg_progSize (s : State) (r : RegIdx) (v : Dword) : (s.setReg r v).progSize = s.progSize := by
  unfold State.setReg; split <;> rfl
@[simp] theorem setReg_mem (s : State) (r : RegIdx) (v : Dword) : (s.setReg r v).mem = s.mem := by
  unfold State.setReg; split <;> rfl
@[simp] theorem setReg_status (s : State) (r : RegIdx) (v : Dword) : (s.setReg r v).status = s.status := by
  unfold State.setReg; split <;> rfl
@[simp] theorem setReg_console (s : State) (r : RegIdx) (v : Dword) : (s.setReg r v).console = s.console := by
  unfold State.setReg; split <;> rfl
@[simp] theorem setReg_inputs (s : State) (r : RegIdx) (v : Dword) : (s.setReg r v).inputs = s.inputs := by
  unfold State.setReg; split <;> rfl

/-! ### The instruction pointer -/

@[simp] theorem setPc_pc (s : State) (t : Dword) : (s.setPc t).pc = t := rfl
@[simp] theorem setPc_reg (s : State) (t : Dword) (q : RegIdx) : (s.setPc t).reg q = s.reg q := rfl
@[simp] theorem setPc_cfg (s : State) (t : Dword) : (s.setPc t).cfg = s.cfg := rfl
@[simp] theorem setPc_progSize (s : State) (t : Dword) : (s.setPc t).progSize = s.progSize := rfl
@[simp] theorem setPc_mem (s : State) (t : Dword) : (s.setPc t).mem = s.mem := rfl
@[simp] theorem setPc_status (s : State) (t : Dword) : (s.setPc t).status = s.status := rfl
@[simp] theorem setPc_console (s : State) (t : Dword) : (s.setPc t).console = s.console := rfl
@[simp] theorem setPc_inputs (s : State) (t : Dword) : (s.setPc t).inputs = s.inputs := rfl

/-- The default advance of F24 is a move of `pc` by 4 (R105). -/
theorem advance24_eq (s : State) : s.advance24 = s.setPc (s.pc + 4) := rfl

/-- The default advance of F32 is a move of `pc` by 4 (R105). -/
theorem advance32_eq (s : State) : s.advance32 = s.setPc (s.pc + 4) := rfl

/-! ### Stores -/

@[simp] theorem writeDword_pc (s : State) (a v : Dword) : (s.writeDword a v).pc = s.pc := rfl
@[simp] theorem writeDword_reg (s : State) (a v : Dword) (q : RegIdx) : (s.writeDword a v).reg q = s.reg q := rfl
@[simp] theorem writeDword_cfg (s : State) (a v : Dword) : (s.writeDword a v).cfg = s.cfg := rfl
@[simp] theorem writeDword_progSize (s : State) (a v : Dword) : (s.writeDword a v).progSize = s.progSize := rfl
@[simp] theorem writeDword_mem (s : State) (a v : Dword) : (s.writeDword a v).mem = s.mem.write a.toNat 8 v := rfl
@[simp] theorem writeDword_status (s : State) (a v : Dword) : (s.writeDword a v).status = s.status := rfl
@[simp] theorem writeDword_console (s : State) (a v : Dword) : (s.writeDword a v).console = s.console := rfl
@[simp] theorem writeDword_inputs (s : State) (a v : Dword) : (s.writeDword a v).inputs = s.inputs := rfl

/-! ### Faults, pause, resume, console -/

@[simp] theorem raise_pc (s : State) (c : FaultCause) : (s.raise c).pc = s.pc := rfl
@[simp] theorem raise_reg (s : State) (c : FaultCause) (q : RegIdx) : (s.raise c).reg q = s.reg q := rfl
@[simp] theorem raise_cfg (s : State) (c : FaultCause) : (s.raise c).cfg = s.cfg := rfl
@[simp] theorem raise_progSize (s : State) (c : FaultCause) : (s.raise c).progSize = s.progSize := rfl
@[simp] theorem raise_mem (s : State) (c : FaultCause) : (s.raise c).mem = s.mem := rfl
@[simp] theorem raise_status (s : State) (c : FaultCause) : (s.raise c).status = .faulted c := rfl
@[simp] theorem raise_console (s : State) (c : FaultCause) : (s.raise c).console = s.console := rfl
@[simp] theorem raise_inputs (s : State) (c : FaultCause) : (s.raise c).inputs = s.inputs := rfl

@[simp] theorem pause_pc (s : State) : s.pause.pc = s.pc := rfl
@[simp] theorem pause_reg (s : State) (q : RegIdx) : s.pause.reg q = s.reg q := rfl
@[simp] theorem pause_cfg (s : State) : s.pause.cfg = s.cfg := rfl
@[simp] theorem pause_progSize (s : State) : s.pause.progSize = s.progSize := rfl
@[simp] theorem pause_mem (s : State) : s.pause.mem = s.mem := rfl
@[simp] theorem pause_status (s : State) : s.pause.status = .paused := rfl
@[simp] theorem pause_console (s : State) : s.pause.console = s.console := rfl
@[simp] theorem pause_inputs (s : State) : s.pause.inputs = s.inputs := rfl

@[simp] theorem resumed_pc (s : State) : s.resumed.pc = s.pc + 4 := rfl
@[simp] theorem resumed_reg (s : State) (q : RegIdx) : s.resumed.reg q = s.reg q := rfl
@[simp] theorem resumed_cfg (s : State) : s.resumed.cfg = s.cfg := rfl
@[simp] theorem resumed_progSize (s : State) : s.resumed.progSize = s.progSize := rfl
@[simp] theorem resumed_mem (s : State) : s.resumed.mem = s.mem := rfl
@[simp] theorem resumed_status (s : State) : s.resumed.status = .running := rfl
@[simp] theorem resumed_console (s : State) : s.resumed.console = s.console := rfl
@[simp] theorem resumed_inputs (s : State) : s.resumed.inputs = s.inputs := rfl

@[simp] theorem emit_pc (s : State) (v : Dword) : (s.emit v).pc = s.pc := rfl
@[simp] theorem emit_reg (s : State) (v : Dword) (q : RegIdx) : (s.emit v).reg q = s.reg q := rfl
@[simp] theorem emit_cfg (s : State) (v : Dword) : (s.emit v).cfg = s.cfg := rfl
@[simp] theorem emit_progSize (s : State) (v : Dword) : (s.emit v).progSize = s.progSize := rfl
@[simp] theorem emit_mem (s : State) (v : Dword) : (s.emit v).mem = s.mem := rfl
@[simp] theorem emit_status (s : State) (v : Dword) : (s.emit v).status = s.status := rfl
@[simp] theorem emit_console (s : State) (v : Dword) : (s.emit v).console = s.console ++ [v] := rfl
@[simp] theorem emit_inputs (s : State) (v : Dword) : (s.emit v).inputs = s.inputs := rfl

/-! ### The load -/

@[simp] theorem loaded_pc (s : State) (l : List Byte) : (s.loaded l).pc = s.cfg.progBase := rfl
@[simp] theorem loaded_reg (s : State) (l : List Byte) (q : RegIdx) : (s.loaded l).reg q = s.reg q := rfl
@[simp] theorem loaded_cfg (s : State) (l : List Byte) : (s.loaded l).cfg = s.cfg := rfl
@[simp] theorem loaded_progSize (s : State) (l : List Byte) : (s.loaded l).progSize = l.length := rfl
@[simp] theorem loaded_mem (s : State) (l : List Byte) :
    (s.loaded l).mem = s.mem.writeList s.cfg.progBase.toNat l := rfl
@[simp] theorem loaded_status (s : State) (l : List Byte) : (s.loaded l).status = .running := rfl
@[simp] theorem loaded_console (s : State) (l : List Byte) : (s.loaded l).console = s.console := rfl
@[simp] theorem loaded_inputs (s : State) (l : List Byte) : (s.loaded l).inputs = s.inputs := rfl

/-! ### The new launch of a reload -/

section relaunched

variable (s : State) (c : Config) (regs : Vector Dword 31) (stack : List Byte)

@[simp] theorem relaunched_cfg : (s.relaunched c regs stack).cfg = c := rfl
@[simp] theorem relaunched_regs : (s.relaunched c regs stack).regs = regs := rfl
@[simp] theorem relaunched_pc : (s.relaunched c regs stack).pc = c.progBase := rfl
@[simp] theorem relaunched_progSize : (s.relaunched c regs stack).progSize = 0 := rfl
@[simp] theorem relaunched_mem : (s.relaunched c regs stack).mem =
    Memory.writeList [] c.stackBase.toNat (stack.take c.stackSize) := rfl
@[simp] theorem relaunched_status : (s.relaunched c regs stack).status = .notLoaded := rfl
@[simp] theorem relaunched_console : (s.relaunched c regs stack).console = [] := rfl
@[simp] theorem relaunched_inputs : (s.relaunched c regs stack).inputs = s.inputs := rfl

end relaunched

/-! ### What reads only some fields -/

/-- A byte of the machine is the byte of its memory. -/
theorem byteAt_eq (s : State) (a : Nat) : s.byteAt a = s.mem.byteAt a := rfl

/-- Validity looks at the parameters and the program's size only. -/
theorem valid_congr {s t : State} (hc : t.cfg = s.cfg) (hp : t.progSize = s.progSize) (a : Dword) (n : Nat)
    (k : AccessKind) : t.valid a n k = s.valid a n k := by
  simp only [State.valid, State.inProg, State.inStack, hc, hp]

end Sys2Proof.Machine
end

