-- ==== Sys2Proof/Laws/Ops.lean ====
section
/-! SUPPORT. One lemma per shared operation that says everything it can do. -/

namespace Sys2Proof.Machine

/-- The bytes of an access lie in a region, as inequalities. -/
theorem inRegion_iff {base size addr n : Nat} :
    inRegion base size addr n = true ↔ base ≤ addr ∧ addr + n ≤ base + size := by
  simp [inRegion]

/-- A store is valid when its bytes lie in the stack region (R42). -/
theorem valid_store_iff {s : State} {a : Dword} {n : Nat} :
    s.valid a n .store = true ↔
      s.cfg.stackBase.toNat ≤ a.toNat ∧ a.toNat + n ≤ s.cfg.stackBase.toNat + s.cfg.stackSize := by
  simp [State.valid, State.inStack, inRegion]

/-- Another access is valid when its bytes lie in one region (R42). -/
theorem valid_read_iff {s : State} {a : Dword} {n : Nat} {k : AccessKind} (hk : k ≠ .store) :
    s.valid a n k = true ↔ s.inProg a.toNat n = true ∨ s.inStack a.toNat n = true := by
  cases k <;> simp [State.valid] at hk ⊢

/-- The three things a fetch can do (R101). -/
theorem fetch_cases (s : State) :
    (s.pc.toNat % 4 ≠ 0 ∧ s.fetch = .error (.misalignedFetch s.pc)) ∨
    (s.pc.toNat % 4 = 0 ∧ s.valid s.pc 4 .fetch = false ∧ s.fetch = .error (.memoryFault .fetch s.pc)) ∨
    (s.pc.toNat % 4 = 0 ∧ s.valid s.pc 4 .fetch = true ∧ s.fetch = .ok (s.readWord s.pc)) := by
  by_cases h : s.pc.toNat % 4 = 0
  · by_cases hv : s.valid s.pc 4 .fetch = true
    · exact .inr (.inr ⟨h, hv, by simp [State.fetch, fetchAlign, fetchBytes, h, hv]⟩)
    · exact .inr (.inl ⟨h, by simpa using hv, by simp [State.fetch, fetchAlign, fetchBytes, h, hv]⟩)
  · exact .inl ⟨h, by simp [State.fetch, fetchAlign, h]⟩

/-- A fetch that gives a word is aligned and valid, and the word is what memory holds. -/
theorem fetch_ok {s : State} {w : Word} (h : s.fetch = .ok w) :
    s.pc.toNat % 4 = 0 ∧ s.valid s.pc 4 .fetch = true ∧ w = s.readWord s.pc := by
  rcases fetch_cases s with ⟨_, hf⟩ | ⟨_, _, hf⟩ | ⟨ha, hv, hf⟩
  · simp [hf] at h
  · simp [hf] at h
  · exact ⟨ha, hv, by simpa [hf, eq_comm] using h⟩

/-- The conditions of R101 give the word. -/
theorem fetch_eq_ok {s : State} (ha : s.pc.toNat % 4 = 0) (hv : s.valid s.pc 4 .fetch = true) :
    s.fetch = .ok (s.readWord s.pc) := by
  simp [State.fetch, fetchAlign, fetchBytes, ha, hv]

/-- A load event that answers a next state found no program, an image that is not empty and one that fits. -/
theorem load_next {s t : State} {image : List Byte} (h : s.load image = .next t) :
    s.status = .notLoaded ∧ image ≠ [] ∧ s.cfg.fits image.length ∧ t = s.loaded image := by
  unfold State.load at h
  split at h
  · simp at h
  next h1 =>
    split at h
    · simp at h
    next h2 =>
      split at h
      next h3 => exact ⟨not_not.1 h1, h2, h3, by simpa [eq_comm] using h⟩
      · simp at h

/-- The conditions of R210 to R212 let a load complete. -/
theorem load_eq_next {s : State} {image : List Byte} (hs : s.status = .notLoaded) (hf : s.cfg.fits image.length) :
    s.load image = .next (s.loaded image) := by
  have hne : image ≠ [] := by
    rintro rfl
    exact absurd hf.1 (by simp)
  unfold State.load
  rw [if_neg (not_not.2 hs), if_neg hne, if_pos hf]

/-- A launch of an image that obeys R41 completes (R210). -/
theorem launch_eq_next {c : Config} {image : List Byte} (hf : c.fits image.length) :
    State.launch c image = .next ((State.construct c).loaded image) :=
  load_eq_next rfl hf

/-- A reload that answers a next state is the first load, or a load into the new launch of a running or paused engine;
the image is not empty and fits the parameters of that launch. -/
theorem reload_next {s t : State} {c : Config} {image : List Byte} {regs : Vector Dword 31} {stack : List Byte}
    (h : s.reload c image regs stack = .next t) : image ≠ [] ∧
    ((s.status = .notLoaded ∧ s.cfg.fits image.length ∧ t = s.loaded image) ∨
      ((s.status = .running ∨ s.status = .paused) ∧ c.fits image.length ∧
        t = (s.relaunched c regs stack).loaded image)) := by
  unfold State.reload at h
  split at h
  next hs => exact ⟨(load_next h).2.1, .inl ⟨hs, (load_next h).2.2⟩⟩
  next hs => exact ⟨(load_next h).2.1, .inr ⟨.inl hs, (load_next h).2.2⟩⟩
  next hs => exact ⟨(load_next h).2.1, .inr ⟨.inr hs, (load_next h).2.2⟩⟩
  · cases h

/-- An image that obeys R41 is reloaded at a running or paused engine, whatever the unspecified values are (R215). -/
theorem reload_eq_next {s : State} {c : Config} {image : List Byte} (hs : s.status = .running ∨ s.status = .paused)
    (hf : c.fits image.length) (regs : Vector Dword 31) (stack : List Byte) :
    s.reload c image regs stack = .next ((s.relaunched c regs stack).loaded image) := by
  unfold State.reload
  rcases hs with hs | hs <;> rw [hs] <;> exact load_eq_next rfl hf

/-- A resume event moves a paused engine on and leaves any other as it is (R166). -/
theorem resume_next {s t : State} {v : Dword} (h : s.resume v = .next t) :
    (s.status = .paused ∧ t = s.resumed) ∨ (s.status ≠ .paused ∧ t = s) := by
  unfold State.resume at h
  split at h
  next hp => exact .inl ⟨hp, by simpa [eq_comm] using h⟩
  next hp => exact .inr ⟨hp, by simpa [eq_comm] using h⟩

/-- What a waiting engine's step can answer: the same state, the next load, or the next resume. -/
theorem awaitHost_next {s t : State} (h : s.awaitHost = .next t) :
    (s.inputs = [] ∧ t = s) ∨
    (∃ image rest, s.inputs = .load image :: rest ∧ s.status = .notLoaded ∧ image ≠ [] ∧
      s.cfg.fits image.length ∧ t = { s with inputs := rest }.loaded image) ∨
    (∃ v rest, s.inputs = .resume v :: rest ∧
      ((s.status = .paused ∧ t = { s with inputs := rest }.resumed) ∨
        (s.status ≠ .paused ∧ t = { s with inputs := rest }))) := by
  unfold State.awaitHost at h
  split at h
  next hi => exact .inl ⟨hi, by simpa [eq_comm] using h⟩
  next e rest hi =>
    cases e with
    | load image =>
      obtain ⟨h1, h2, h3, h4⟩ := load_next h
      exact .inr (.inl ⟨image, rest, hi, h1, h2, h3, h4⟩)
    | resume v => exact .inr (.inr ⟨v, rest, hi, resume_next (v := v) h⟩)

end Sys2Proof.Machine
end

