-- ==== Sys2Proof/Laws/Exec.lean ====
section
/-! SUPPORT. What each meaning answers, as one equation per shape, and what a step can do. Later proofs cite these and do
not unfold the meanings. -/

namespace Sys2Proof.Machine

/-- The destination and the value of an instruction that only writes a register and falls through. -/
def aluResult (s : State) : Instr → Option (RegIdx × Dword)
  | .add ra rb rc => some (rc, s.reg ra + s.reg rb)
  | .sub ra rb rc => some (rc, s.reg ra - s.reg rb)
  | .and ra rb rc => some (rc, s.reg ra &&& s.reg rb)
  | .or ra rb rc => some (rc, s.reg ra ||| s.reg rb)
  | .xor ra rb rc => some (rc, s.reg ra ^^^ s.reg rb)
  | .addi ra rb imm => some (rb, s.reg ra + sext13 imm)
  | .andi ra rb imm => some (rb, s.reg ra &&& sext13 imm)
  | .ori ra rb imm => some (rb, s.reg ra ||| sext13 imm)
  | .xori ra rb imm => some (rb, s.reg ra ^^^ sext13 imm)
  | .ld _ _ _ | .sd _ _ _ | .beq _ _ _ | .bne _ _ _ | .blt _ _ _ | .jr | .halt | .syscall | .jal _ _ => none

/-- The nine ALU instructions write their result and advance `pc` by 4. -/
theorem exec_alu {i : Instr} {s : State} {r : RegIdx} {v : Dword} (h : aluResult s i = some (r, v)) :
    exec i s = .next ((s.setReg r v).setPc (s.pc + 4)) := by
  cases i <;> simp only [aluResult, Option.some.injEq, Prod.mk.injEq, reduceCtorEq] at h <;>
    obtain ⟨rfl, rfl⟩ := h <;>
    simp [exec, execAdd, execSub, execAnd, execOr, execXor, execAddi, execAndi, execOri, execXori, State.aluReg,
      State.aluImm, advance24_eq, advance32_eq]

/-- The target of a control transfer at `s`, or the fall-through of a branch that is not taken. -/
def transferTarget (s : State) : Instr → Option Dword
  | .beq ra rb imm => some (if s.reg ra = s.reg rb then s.pc + sext13 imm else s.pc + 4)
  | .bne ra rb imm => some (if s.reg ra ≠ s.reg rb then s.pc + sext13 imm else s.pc + 4)
  | .blt ra rb imm => some (if (s.reg rb).toInt < (s.reg ra).toInt then s.pc + sext13 imm else s.pc + 4)
  | .jr => some (s.reg 31)
  | .add _ _ _ | .sub _ _ _ | .and _ _ _ | .or _ _ _ | .xor _ _ _ | .addi _ _ _ | .andi _ _ _ | .ori _ _ _
  | .xori _ _ _ | .ld _ _ _ | .sd _ _ _ | .halt | .syscall | .jal _ _ => none

/-- The branches and JR move `pc` and change nothing else. -/
theorem exec_transfer {i : Instr} {s : State} {target : Dword} (h : transferTarget s i = some target) :
    exec i s = .next (s.setPc target) := by
  cases i <;> simp only [transferTarget, Option.some.injEq, reduceCtorEq] at h <;> subst h <;>
    simp only [exec, execBeq, execBne, execBlt, execJr, State.branch, condEq, condNe, condLt, State.branchTarget,
      advance32_eq, linkReg, BitVec.slt, beq_iff_eq, bne_iff_ne, decide_eq_true_eq] <;>
    (try split) <;> rfl

/-- JAL writes the link and moves `pc` (R154). -/
theorem exec_jal (form : JalForm) (imm : BitVec 23) (s : State) :
    exec (.jal form imm) s = .next ((s.setReg 31 (s.pc + 4)).setPc (s.pc + sext23 imm)) := rfl

/-- LD, when its access is valid (R141). -/
theorem exec_ld_valid {ra rb : RegIdx} {imm : BitVec 13} {s : State} (h : s.valid (s.effAddr ra imm) 8 .load = true) :
    exec (.ld ra rb imm) s =
      .next ((s.setReg rb (s.readDword (s.effAddr ra imm))).setPc (s.pc + 4)) := by
  simp [exec, execLd, h, advance32_eq]

/-- LD, when its access is not valid (R141). -/
theorem exec_ld_invalid {ra rb : RegIdx} {imm : BitVec 13} {s : State}
    (h : s.valid (s.effAddr ra imm) 8 .load = false) :
    exec (.ld ra rb imm) s = .next (s.raise (.memoryFault .load (s.effAddr ra imm))) := by
  simp [exec, execLd, h]

/-- SD, when its access is valid (R142). -/
theorem exec_sd_valid {ra rb : RegIdx} {imm : BitVec 13} {s : State}
    (h : s.valid (s.effAddr ra imm) 8 .store = true) :
    exec (.sd ra rb imm) s = .next ((s.writeDword (s.effAddr ra imm) (s.reg rb)).setPc (s.pc + 4)) := by
  simp [exec, execSd, h, advance32_eq]

/-- SD, when its access is not valid (R142). -/
theorem exec_sd_invalid {ra rb : RegIdx} {imm : BitVec 13} {s : State}
    (h : s.valid (s.effAddr ra imm) 8 .store = false) :
    exec (.sd ra rb imm) s = .next (s.raise (.memoryFault .store (s.effAddr ra imm))) := by
  simp [exec, execSd, h]

/-- HALT pauses (R165). -/
theorem exec_halt (s : State) : exec .halt s = .next s.pause := rfl

/-- SYSCALL emits `x[1]` and advances (R167). -/
theorem exec_syscall (s : State) : exec .syscall s = .next ((s.emit (s.reg 1)).setPc (s.pc + 4)) := rfl

/-- Every instruction at every state has one of these seven effects. -/
theorem exec_cases (i : Instr) (s : State) :
    (∃ r v, aluResult s i = some (r, v) ∧ exec i s = .next ((s.setReg r v).setPc (s.pc + 4))) ∨
    (∃ target, transferTarget s i = some target ∧ exec i s = .next (s.setPc target)) ∨
    (∃ form imm, i = .jal form imm ∧ exec i s = .next ((s.setReg 31 (s.pc + 4)).setPc (s.pc + sext23 imm))) ∨
    (∃ ra rb imm, i = .ld ra rb imm ∧
      ((s.valid (s.effAddr ra imm) 8 .load = true ∧
          exec i s = .next ((s.setReg rb (s.readDword (s.effAddr ra imm))).setPc (s.pc + 4))) ∨
        (s.valid (s.effAddr ra imm) 8 .load = false ∧
          exec i s = .next (s.raise (.memoryFault .load (s.effAddr ra imm)))))) ∨
    (∃ ra rb imm, i = .sd ra rb imm ∧
      ((s.valid (s.effAddr ra imm) 8 .store = true ∧
          exec i s = .next ((s.writeDword (s.effAddr ra imm) (s.reg rb)).setPc (s.pc + 4))) ∨
        (s.valid (s.effAddr ra imm) 8 .store = false ∧
          exec i s = .next (s.raise (.memoryFault .store (s.effAddr ra imm)))))) ∨
    (i = .halt ∧ exec i s = .next s.pause) ∨
    (i = .syscall ∧ exec i s = .next ((s.emit (s.reg 1)).setPc (s.pc + 4))) := by
  cases i with
  | ld ra rb imm =>
    refine .inr (.inr (.inr (.inl ⟨ra, rb, imm, rfl, ?_⟩)))
    cases h : s.valid (s.effAddr ra imm) 8 .load
    · exact .inr ⟨rfl, exec_ld_invalid h⟩
    · exact .inl ⟨rfl, exec_ld_valid h⟩
  | sd ra rb imm =>
    refine .inr (.inr (.inr (.inr (.inl ⟨ra, rb, imm, rfl, ?_⟩))))
    cases h : s.valid (s.effAddr ra imm) 8 .store
    · exact .inr ⟨rfl, exec_sd_invalid h⟩
    · exact .inl ⟨rfl, exec_sd_valid h⟩
  | halt => exact .inr (.inr (.inr (.inr (.inr (.inl ⟨rfl, rfl⟩)))))
  | syscall => exact .inr (.inr (.inr (.inr (.inr (.inr ⟨rfl, rfl⟩)))))
  | jal form imm => exact .inr (.inr (.inl ⟨form, imm, rfl, rfl⟩))
  | beq _ _ _ | bne _ _ _ | blt _ _ _ | jr => exact .inr (.inl ⟨_, rfl, exec_transfer rfl⟩)
  | add _ _ _ | sub _ _ _ | and _ _ _ | or _ _ _ | xor _ _ _ | addi _ _ _ | andi _ _ _ | ori _ _ _ | xori _ _ _ =>
    exact .inl ⟨_, _, rfl, exec_alu rfl⟩

/-- What a step that answers a next state did: an instruction, a raise of fetch, classify or dispatch, or the host's
event at a waiting engine. -/
theorem step_next {s t : State} (h : step s = .next t) :
    (∃ i, s.runs i ∧ exec i s = .next t) ∨
    (s.status = .running ∧ ∃ cause, t = s.raise cause ∧
      (s.fetch = .error cause ∨
        ∃ w, s.fetch = .ok w ∧
          ((decodeWord s.cfg.ops w = .decodeError ∧ cause = .decodeError w) ∨
            (decodeWord s.cfg.ops w = .unknownOpcode ∧ cause = .unknownOpcode w)))) ∨
    ((s.status = .notLoaded ∨ s.status = .paused) ∧ s.awaitHost = .next t) := by
  unfold step State.engineStep at h
  split at h
  next hs =>
    unfold State.cycle at h
    split at h
    next cause hf =>
      exact .inr (.inl ⟨hs, cause, by simpa [eq_comm] using h, .inl hf⟩)
    next w hf =>
      split at h
      next i hd => exact .inl ⟨i, ⟨hs, w, hf, hd⟩, h⟩
      next hd => exact .inr (.inl ⟨hs, _, by simpa [eq_comm] using h, .inr ⟨w, hf, .inl ⟨hd, rfl⟩⟩⟩)
      next hd => exact .inr (.inl ⟨hs, _, by simpa [eq_comm] using h, .inr ⟨w, hf, .inr ⟨hd, rfl⟩⟩⟩)
  next hs => exact .inr (.inr ⟨.inl hs, h⟩)
  next hs => exact .inr (.inr ⟨.inr hs, h⟩)
  · simp at h

end Sys2Proof.Machine
end

