-- ==== Sys2Proof/Laws/PerInstr.lean ====
section
/-! SUPPORT. A statement about every instruction as syntax, with one lemma per constructor. -/

namespace Sys2Proof

/-- The opcode values of the instruction's family. -/
def familyValues (m : OpMap) : Family → List Op
  | .f16 => []
  | .f24 => m.f24.values
  | .f32 => m.f32.values

/-- The word of an instruction is in a supported family and its opcode field is a value of that family's map (R71, R77,
R78). -/
def Laws.EncodedOpcode.Statement (i : Instr) : Prop :=
  ∀ m : OpMap, classify (encode m i) ≠ .f16 ∧ opField (encode m i) ∈ familyValues m (classify (encode m i))

theorem Laws.EncodedOpcode.add (ra rb rc : RegIdx) : Laws.EncodedOpcode.Statement (.add ra rb rc) := fun m => by
  simp [encode, familyValues, OpMap24.values]

theorem Laws.EncodedOpcode.sub (ra rb rc : RegIdx) : Laws.EncodedOpcode.Statement (.sub ra rb rc) := fun m => by
  simp [encode, familyValues, OpMap24.values]

theorem Laws.EncodedOpcode.and (ra rb rc : RegIdx) : Laws.EncodedOpcode.Statement (.and ra rb rc) := fun m => by
  simp [encode, familyValues, OpMap24.values]

theorem Laws.EncodedOpcode.or (ra rb rc : RegIdx) : Laws.EncodedOpcode.Statement (.or ra rb rc) := fun m => by
  simp [encode, familyValues, OpMap24.values]

theorem Laws.EncodedOpcode.xor (ra rb rc : RegIdx) : Laws.EncodedOpcode.Statement (.xor ra rb rc) := fun m => by
  simp [encode, familyValues, OpMap24.values]

theorem Laws.EncodedOpcode.addi (ra rb : RegIdx) (imm : BitVec 13) : Laws.EncodedOpcode.Statement (.addi ra rb imm) := fun m => by
  simp [encode, familyValues, OpMap32.values]

theorem Laws.EncodedOpcode.andi (ra rb : RegIdx) (imm : BitVec 13) : Laws.EncodedOpcode.Statement (.andi ra rb imm) := fun m => by
  simp [encode, familyValues, OpMap32.values]

theorem Laws.EncodedOpcode.ori (ra rb : RegIdx) (imm : BitVec 13) : Laws.EncodedOpcode.Statement (.ori ra rb imm) := fun m => by
  simp [encode, familyValues, OpMap32.values]

theorem Laws.EncodedOpcode.xori (ra rb : RegIdx) (imm : BitVec 13) : Laws.EncodedOpcode.Statement (.xori ra rb imm) := fun m => by
  simp [encode, familyValues, OpMap32.values]

theorem Laws.EncodedOpcode.ld (ra rb : RegIdx) (imm : BitVec 13) : Laws.EncodedOpcode.Statement (.ld ra rb imm) := fun m => by
  simp [encode, familyValues, OpMap32.values]

theorem Laws.EncodedOpcode.sd (ra rb : RegIdx) (imm : BitVec 13) : Laws.EncodedOpcode.Statement (.sd ra rb imm) := fun m => by
  simp [encode, familyValues, OpMap32.values]

theorem Laws.EncodedOpcode.beq (ra rb : RegIdx) (imm : BitVec 13) : Laws.EncodedOpcode.Statement (.beq ra rb imm) := fun m => by
  simp [encode, familyValues, OpMap32.values]

theorem Laws.EncodedOpcode.bne (ra rb : RegIdx) (imm : BitVec 13) : Laws.EncodedOpcode.Statement (.bne ra rb imm) := fun m => by
  simp [encode, familyValues, OpMap32.values]

theorem Laws.EncodedOpcode.blt (ra rb : RegIdx) (imm : BitVec 13) : Laws.EncodedOpcode.Statement (.blt ra rb imm) := fun m => by
  simp [encode, familyValues, OpMap32.values]

theorem Laws.EncodedOpcode.jr : Laws.EncodedOpcode.Statement .jr := fun m => by
  simp [encode, familyValues, OpMap32.values]

theorem Laws.EncodedOpcode.halt : Laws.EncodedOpcode.Statement .halt := fun m => by
  simp [encode, familyValues, OpMap32.values]

theorem Laws.EncodedOpcode.syscall : Laws.EncodedOpcode.Statement .syscall := fun m => by
  simp [encode, familyValues, OpMap32.values]

theorem Laws.EncodedOpcode.jal (form : JalForm) (imm : BitVec 23) :
    Laws.EncodedOpcode.Statement (.jal form imm) := fun m => by
  cases form <;> simp [encode, familyValues, OpMap32.values, OpMap32.jal]

end Sys2Proof
end

