-- ==== Sys2Proof/Tests/Slice0.lean ====
section
/-! SUPPORT. Tests of the model and witnesses for the statements. Words, states and results are those of
`spec/95_test_vectors.md` or worked by hand from the rule a comment names; none is the model's own answer. -/

open Sys2Proof Sys2Proof.Machine

namespace Sys2Proof.Tests

/-! ### Helpers -/

/-- The launch state of an image of words under the parameters of `95_test_vectors.md`. -/
def launch (words : List Word) : State := State.reset.loaded (words.flatMap wordBytes)

/-- A part of the next state an outcome answers. -/
def after {α : Type} (r : Result) (part : State → α) : Option α :=
  match r with
  | .next t => some (part t)
  | .fault _ => none
  | .refused _ => none

/-- A machine at `pc = 0x1010` in a program of 64 zero bytes, with `x[8] = a` and `x[9] = b`. -/
def twoRegs (a b : Dword) : State :=
  (((launch (List.replicate 16 0)).setReg 8 a).setReg 9 b).setPc 0x1010

/-- One instruction at `twoRegs a b`, and a part of the state after it. -/
def ran {α : Type} (i : Instr) (a b : Dword) (part : State → α) : Option α := after (exec i (twoRegs a b)) part

/-! ### Well-formedness: an ill-formed term for each check, which the check refuses (R41, R77, R78) -/

theorem test_default_wf : Config.default.wf ∧ Config.default.fits 64 := by decide
theorem test_refuses_equal_f24_opcodes : ¬ ({ OpMap24.default with sub := 0 } : OpMap24).injective := by decide
theorem test_refuses_equal_f32_opcodes : ¬ ({ OpMap32.default with jalB := 0 } : OpMap32).injective := by decide
theorem test_refuses_map_with_equal_opcodes : ¬ ({ OpMap.default with f24 := { OpMap24.default with xor := 3 } } : OpMap).wf := by
  decide
theorem test_refuses_program_base_off_8 : ¬ ({ Config.default with progBase := 0x1004 } : Config).basesAligned := by decide
theorem test_refuses_stack_base_off_8 : ¬ ({ Config.default with stackBase := 0x8001 } : Config).basesAligned := by decide
theorem test_refuses_small_stack : ¬ ({ Config.default with stackSize := 0 } : Config).stackSized := by decide
theorem test_refuses_stack_size_off_8 : ¬ ({ Config.default with stackSize := 12 } : Config).stackSized := by decide
theorem test_refuses_stack_at_top :
    ¬ ({ Config.default with stackBase := 0xFFFFFFFFFFFFFFF8, stackSize := 8 } : Config).stackBelowTop := by decide
theorem test_refuses_ill_formed_config : ¬ ({ Config.default with stackSize := 12 } : Config).wf := by decide
theorem test_refuses_empty_program : ¬ Config.default.fits 0 := by decide
theorem test_refuses_overlap : ¬ Config.default.disjoint 0x7001 ∧ Config.default.disjoint 0x7000 := by decide
theorem test_refuses_program_at_top :
    ¬ ({ Config.default with progBase := 0xFFFFFFFFFFFFFFF0 } : Config).fits 9 := by decide

/-! ### Decoding: a word of every constructor, its fields written out from R72 to R75 with the default maps -/

theorem test_decode_add :
    decodeWord OpMap.default 0b110_000000_01000_01001_01010_00000000 = .instr (.add 8 9 10) := by decide
theorem test_decode_sub :
    decodeWord OpMap.default 0b110_000001_01000_01001_01011_00000000 = .instr (.sub 8 9 11) := by decide
theorem test_decode_and :
    decodeWord OpMap.default 0b110_000010_01000_01001_01100_00000000 = .instr (.and 8 9 12) := by decide
theorem test_decode_or :
    decodeWord OpMap.default 0b110_000011_01000_01001_01101_00000000 = .instr (.or 8 9 13) := by decide
theorem test_decode_xor :
    decodeWord OpMap.default 0b110_000100_01000_01001_01110_00000000 = .instr (.xor 8 9 14) := by decide
theorem test_decode_addi :
    decodeWord OpMap.default 0b111_000000_00000_01000_0000000000101 = .instr (.addi 0 8 5) := by decide
theorem test_decode_andi :
    decodeWord OpMap.default 0b111_000001_01000_01001_0000011111111 = .instr (.andi 8 9 0xFF) := by decide
theorem test_decode_ori :
    decodeWord OpMap.default 0b111_000010_01000_01001_1000000000000 = .instr (.ori 8 9 0x1000) := by decide
theorem test_decode_xori :
    decodeWord OpMap.default 0b111_000011_01000_01001_1111111111111 = .instr (.xori 8 9 0x1FFF) := by decide
theorem test_decode_ld :
    decodeWord OpMap.default 0b111_000100_11101_01001_0000000001000 = .instr (.ld 29 9 8) := by decide
theorem test_decode_sd :
    decodeWord OpMap.default 0b111_000101_11101_01000_0000000001000 = .instr (.sd 29 8 8) := by decide
theorem test_decode_beq :
    decodeWord OpMap.default 0b111_000110_01000_01001_0000000010000 = .instr (.beq 8 9 16) := by decide
theorem test_decode_bne :
    decodeWord OpMap.default 0b111_000111_01000_00000_1111111111000 = .instr (.bne 8 0 0x1FF8) := by decide
theorem test_decode_blt :
    decodeWord OpMap.default 0b111_001000_01000_01001_0000000000010 = .instr (.blt 8 9 2) := by decide
theorem test_decode_jr :
    decodeWord OpMap.default 0b111_001001_00000000000000000000000 = .instr (.jr) := by decide
theorem test_decode_halt :
    decodeWord OpMap.default 0b111_001010_00000000000000000000000 = .instr (.halt) := by decide
theorem test_decode_syscall :
    decodeWord OpMap.default 0b111_001011_00000000000000000000000 = .instr (.syscall) := by decide
theorem test_decode_jal_a :
    decodeWord OpMap.default 0b111_111110_00000000000000000010000 = .instr (.jal .a 16) := by decide
theorem test_decode_jal_b :
    decodeWord OpMap.default 0b111_111111_00000000000000000010000 = .instr (.jal .b 16) := by decide

/-- `0xC0212AFF`: bits 7:0 of F24 are ignored (R72). -/
theorem test_decode_ignores_f24_low_byte : decodeWord OpMap.default 0xC0212AFF = .instr (.add 8 9 10) := by decide
/-- `0xE5FFFFFF`: bits 22:0 of F32C are ignored (R75). -/
theorem test_decode_ignores_f32c_low_bits : decodeWord OpMap.default 0xE5FFFFFF = .instr .syscall := by decide
theorem test_decode_f16 :
    decodeWord OpMap.default 0 = .decodeError ∧ decodeWord OpMap.default 0xBFFFFFFF = .decodeError := by decide
theorem test_decode_unmapped :
    decodeWord OpMap.default 0xC2800000 = .unknownOpcode ∧ decodeWord OpMap.default 0xDFFFFFFF = .unknownOpcode ∧
    decodeWord OpMap.default 0xE6000000 = .unknownOpcode ∧ decodeWord OpMap.default 0xFE800000 = .unknownOpcode := by
  decide
theorem test_encode_examples :
    encode OpMap.default (.addi 0 8 5) = 0xE0010005 ∧ encode OpMap.default (.jal .a 0x7FFFF8) = 0xFF7FFFF8 ∧
    encodeBytes OpMap.default (.addi 0 8 5) = [0xE0, 0x01, 0x00, 0x05] := by decide
theorem test_decode_truncated : decodeBytes OpMap.default [0xE0, 0x01, 0x00] = .truncated := by decide
theorem test_table_word : decodeTableWord 32 0xE4800000 = some .jr := by decide

/-! ### Reset and launch (R33, R210, R211) -/

theorem test_reset_sp : State.reset.reg 29 = 0x9000 := by decide
theorem test_launch_runs : (launch [0xE5000000]).status = .running ∧ (launch [0xE5000000]).pc = 0x1000 := by decide
theorem test_load_event :
    after (step (State.reset.expecting [.load [0xE5, 0, 0, 0]])) (fun t => (t.status, t.pc, t.progSize)) =
      some (.running, 0x1000, 4) := by decide
/-- A reload of a paused engine at another `PROG_BASE`: a register and a stack byte as given, not as at launch. -/
theorem test_reload :
    after ((launch [0xE5000000, 0, 0]).pause.reload ({ Config.default with progBase := 0x2000 } : Config) [0xC0, 0, 0, 0]
        (Vector.replicate 31 7) [0xAB])
      (fun t => (t.status, t.readWord 0x2000, t.progSize, t.byteAt 0x8000, t.reg 29, t.byteAt 0x1000)) =
      some (.running, 0xC0000000, 4, 0xAB, 7, 0) := by decide
/-- A faulted engine takes no reload; construction and load anew put `SP_INIT` into `x[29]`. -/
theorem test_recovery :
    after (((launch [0]).raise (.decodeError 0)).reload Config.default [0xC0, 0, 0, 0] (Vector.replicate 31 7) [])
      (fun t => t.pc) = none ∧
    after (State.launch Config.default [0xC0, 0, 0, 0]) (fun t => (t.status, t.reg 29)) = some (.running, 0x9000) := by
  decide
theorem test_placed_word_runs :
    after (step (State.reset.withFetchWord 32 0xE0010005)) (fun t => (t.reg 8, t.pc)) = some (5, 0x1004) := by decide

/-! ### Execution, from part 2 of `95_test_vectors.md` -/

theorem test_add_wraps : ran (.add 8 9 10) 0xFFFFFFFFFFFFFFFF 1 (fun t => (t.reg 10, t.pc)) = some (0, 0x1014) := by decide
theorem test_add_onto_sources : ran (.add 8 8 8) 0x4000000000000001 0 (fun t => t.reg 8) = some 0x8000000000000002 := by
  decide
theorem test_sub_order : ran (.sub 8 9 11) 5 0xFFFFFFFFFFFFFFFD (fun t => t.reg 11) = some 8 := by decide
theorem test_sub_borrow : ran (.sub 8 9 10) 0 1 (fun t => t.reg 10) = some 0xFFFFFFFFFFFFFFFF := by decide
theorem test_and : ran (.and 8 9 10) 0xFF00FF00FF00FF00 0x0FF00FF00FF00FF0 (fun t => t.reg 10) =
    some 0x0F000F000F000F00 := by decide
theorem test_or : ran (.or 8 9 10) 0xFF00FF00FF00FF00 0x0FF00FF00FF00FF0 (fun t => t.reg 10) =
    some 0xFFF0FFF0FFF0FFF0 := by decide
theorem test_xor : ran (.xor 8 9 10) 0xFF00FF00FF00FF00 0x0FF00FF00FF00FF0 (fun t => t.reg 10) =
    some 0xF0F0F0F0F0F0F0F0 := by decide
theorem test_add_to_zero : ran (.add 8 9 0) 1 2 (fun t => (t.reg 0, t.pc)) = some (0, 0x1014) := by decide
theorem test_addi_negative : ran (.addi 8 9 0x1FFF) 0 0 (fun t => t.reg 9) = some 0xFFFFFFFFFFFFFFFF := by decide
theorem test_addi_least : ran (.addi 8 9 0x1000) 0 0 (fun t => t.reg 9) = some 0xFFFFFFFFFFFFF000 := by decide
theorem test_andi_sign_extends : ran (.andi 8 9 0x1000) 0x123456789ABCDEF0 0 (fun t => t.reg 9) =
    some 0x123456789ABCD000 := by decide
theorem test_ori_sign_extends : ran (.ori 8 9 0x1000) 0 0 (fun t => t.reg 9) = some 0xFFFFFFFFFFFFF000 := by decide
theorem test_xori_not : ran (.xori 8 9 0x1FFF) 0x123456789ABCDEF0 0 (fun t => t.reg 9) = some 0xEDCBA9876543210F := by
  decide
theorem test_sd_last_doubleword :
    ran (.sd 29 8 0x1FF8) 0x1122334455667788 0 (fun t => (t.byteAt 0x8FF8, t.byteAt 0x8FFF, t.byteAt 0x8FF7, t.status)) =
      some (0x11, 0x88, 0, .running) := by decide
/-- `SD x8, -4(x29)`: four of the bytes are outside, and no byte is written. -/
theorem test_sd_past_end :
    ran (.sd 29 8 0x1FFC) 0x1122334455667788 0 (fun t => (t.status, t.mem.length, t.pc)) =
      some (.faulted (.memoryFault .store 0x8FFC), 0, 0x1010) := by decide
/-- `SD x8, -16(x29)`, then `LD x9, -13(x29)`: a misaligned load, byte by byte. -/
theorem test_ld_misaligned :
    ran (.sd 29 8 0x1FF0) 0x0102030405060708 0 (fun t => after (exec (.ld 29 9 0x1FF3) t) (fun u => u.reg 9)) =
      some (some 0x0405060708000000) := by decide
theorem test_ld_zero_destination_faults :
    ran (.ld 0 0 0) 0 0 (fun t => t.status) = some (.faulted (.memoryFault .load 0)) := by decide
theorem test_beq : ran (.beq 8 9 16) 7 7 (fun t => t.pc) = some 0x1020 ∧
    ran (.beq 8 9 16) 7 8 (fun t => t.pc) = some 0x1014 := by decide
theorem test_bne : ran (.bne 8 9 0x1FF8) 7 8 (fun t => t.pc) = some 0x1008 ∧
    ran (.bne 8 9 0x1FF8) 7 7 (fun t => t.pc) = some 0x1014 := by decide
theorem test_blt_signed : ran (.blt 8 9 8) 0 0xFFFFFFFFFFFFFFFF (fun t => t.pc) = some 0x1018 ∧
    ran (.blt 8 9 8) 0xFFFFFFFFFFFFFFFF 0 (fun t => t.pc) = some 0x1014 := by decide
theorem test_blt_equal : ran (.blt 8 9 8) 4 4 (fun t => t.pc) = some 0x1014 := by decide
theorem test_jal : ran (.jal .a 0x7FFFF8) 0 0 (fun t => (t.reg 31, t.pc)) = some (0x1014, 0x1008) := by decide
theorem test_jal_b_wraps : ran (.jal .b 0x400000) 0 0 (fun t => (t.reg 31, t.pc)) = some (0x1014, 0xFFFFFFFFFFC01010) := by
  decide
theorem test_jr : after (exec .jr ((twoRegs 0 0).setReg 31 0x1003)) (fun t => t.pc) = some 0x1003 := by decide
theorem test_halt : ran .halt 0 0 (fun t => (t.status, t.pc)) = some (.paused, 0x1010) := by decide
theorem test_resume : ran .halt 0 0 (fun t => after (step (t.expecting [.resume 99])) (fun u => (u.status, u.pc))) =
    some (some (.running, 0x1014)) := by decide
theorem test_syscall : after (exec .syscall ((twoRegs 0 0).setReg 1 0xFFFFFFFFFFFFFFFF)) (fun t => (t.console, t.pc)) =
    some ([0xFFFFFFFFFFFFFFFF], 0x1014) := by decide

/-! ### Faults of fetch, classify and dispatch, from part 4 -/

theorem test_step_decode_error :
    after (step (launch [0xBFFFFFFF])) (fun t => (t.status, t.pc)) = some (.faulted (.decodeError 0xBFFFFFFF), 0x1000) := by
  decide
theorem test_step_unknown_opcode :
    after (step (launch [0xE6000000])) (fun t => t.status) = some (.faulted (.unknownOpcode 0xE6000000)) := by decide
/-- With `pc = 0x2002`, misaligned and unmapped, the fault is `MisalignedFetch` (R187). -/
theorem test_step_priority :
    after (step ((launch [0]).setPc 0x2002)) (fun t => t.status) = some (.faulted (.misalignedFetch 0x2002)) := by decide
/-- A 6-byte image faults at its partial word (R213). -/
theorem test_step_partial_word :
    after (step ((State.reset.loaded [0xC0, 0, 0, 0, 0xE5, 0]).setPc 0x1004)) (fun t => t.status) =
      some (.faulted (.memoryFault .fetch 0x1004)) := by decide

/-! ### Witnesses: a state and operands that meet every hypothesis of a statement together -/

/-- A running machine whose word at `pc` is `w`. -/
def at_ (w : Word) : State := launch [w, 0xE5000000, 0xE5000000, 0xE5000000]

theorem witness_DecodeOfEncode : OpMap.default.wf := by decide
theorem witness_EncodeOfDecode : decodeWord OpMap.default 0xC07FFFFF = .instr (.add 31 31 31) := by decide
theorem witness_EveryWord_f16 : (at_ 0xBFFFFFFF).status = .running ∧ (at_ 0xBFFFFFFF).fetch.toOption = some 0xBFFFFFFF ∧
    famField 0xBFFFFFFF ≠ 0b110#3 ∧ famField 0xBFFFFFFF ≠ 0b111#3 := by decide
theorem witness_EveryWord_f24 : (at_ 0xC2800000).fetch.toOption = some 0xC2800000 ∧ famField 0xC2800000 = 0b110#3 ∧
    opField 0xC2800000 ∉ OpMap24.default.values := by decide
theorem witness_EveryWord_f32 : (at_ 0xFE800000).fetch.toOption = some 0xFE800000 ∧ famField 0xFE800000 = 0b111#3 ∧
    opField 0xFE800000 ∉ OpMap32.default.values := by decide
theorem witness_EveryWord_mapped : (at_ 0xFFFFFFFF).fetch.toOption = some 0xFFFFFFFF ∧
    opField 0xFFFFFFFF ∈ OpMap32.default.values := by decide
theorem witness_StepRunsDecoded : (at_ 0xC0212A00).status = .running ∧ (at_ 0xC0212A00).pc.toNat % 4 = 0 ∧
    (at_ 0xC0212A00).valid (at_ 0xC0212A00).pc 4 .fetch = true ∧
    decodeWord (at_ 0xC0212A00).cfg.ops ((at_ 0xC0212A00).readWord (at_ 0xC0212A00).pc) = .instr (.add 8 9 10) := by decide
theorem witness_StepRunsEncoded : (at_ 0xE0010005).cfg.ops.wf ∧ (at_ 0xE0010005).status = .running ∧
    (at_ 0xE0010005).pc.toNat % 4 = 0 ∧ (at_ 0xE0010005).valid (at_ 0xE0010005).pc 4 .fetch = true ∧
    [(at_ 0xE0010005).byteAt 0x1000, (at_ 0xE0010005).byteAt 0x1001, (at_ 0xE0010005).byteAt 0x1002,
      (at_ 0xE0010005).byteAt 0x1003] = encodeBytes (at_ 0xE0010005).cfg.ops (.addi 0 8 5) := by decide
theorem witness_FetchUnit_misaligned : ((at_ 0).setPc 0x1002).pc.toNat % 4 ≠ 0 := by decide
/-- The last aligned address below the program region, and the first one past it. -/
theorem witness_FetchUnit_invalid : (0x0FFC : Dword).toNat % 4 = 0 ∧ (at_ 0).valid 0x0FFC 4 .fetch = false ∧
    (at_ 0).valid 0x1010 4 .fetch = false := by decide
/-- The first and the last word of the program region, and the last of the stack region. -/
theorem witness_FetchUnit_valid : (at_ 0).valid 0x1000 4 .fetch = true ∧ (at_ 0).valid 0x100C 4 .fetch = true ∧
    (at_ 0).valid 0x8FFC 4 .fetch = true := by decide
theorem witness_PlacedWord : State.reset.cfg.basesAligned := by decide
theorem witness_RegisterZero_load_valid : (at_ 0).valid ((at_ 0).reg 29 + sext13 0x1FF8) 8 .load = true := by decide
theorem witness_RegisterZero_load_invalid : (at_ 0).valid ((at_ 0).reg 29 + sext13 0) 8 .load = false := by decide
theorem witness_RegisterZero_exec : (after (exec (.add 8 9 0) (at_ 0)) (fun t => t.pc)).isSome = true := by decide
theorem witness_RegisterTable_writes : (after (exec (.jal .a 0) (at_ 0)) (fun t => t.pc)).isSome = true ∧
    (30 : RegIdx) ∉ writesOf (.jal .a 0) := by decide
theorem witness_RegisterTable_reads : (after (exec (.ld 29 9 0x1FF8) (at_ 0)) (fun t => t.status)) = some .running ∧
    (9 : RegIdx) ∉ readsOf (.ld 29 9 0x1FF8) ∧ (9 : RegIdx) ∈ writesOf (.ld 29 9 0x1FF8) := by decide
theorem witness_WritesAreBigEndian : (0 : Nat) < 8 ∧ (7 : Nat) < 8 ∧ (0x8FF7 < 0x8FF8 ∨ 0x8FF8 + 8 ≤ 0x8FF7) := by decide
theorem witness_DoublewordRoundTrip :
    ∀ c ∈ ([(0x80FF, 1), (0x8108, 2)] : List (Nat × Byte)), c.1 < 0x8100 ∨ 0x8100 + 8 ≤ c.1 := by decide
theorem witness_MixedWidths : (7 : Nat) < 8 := by decide
/-- `0xFF9`, the first doubleword address whose last byte is in the program region, has its first byte outside. -/
theorem witness_OutOfBounds_data : (0 : Nat) < 8 ∧ (at_ 0).inProg (((at_ 0).effAddr 0 0xFF9).toNat + 0) 1 = false ∧
    (at_ 0).inStack (((at_ 0).effAddr 0 0xFF9).toNat + 0) 1 = false := by decide
/-- `SD x8, -4(x29)`: its last byte is past the stack region. -/
theorem witness_OutOfBounds_past_end : (7 : Nat) < 8 ∧ (at_ 0).inProg (((at_ 0).effAddr 29 0x1FFC).toNat + 7) 1 = false ∧
    (at_ 0).inStack (((at_ 0).effAddr 29 0x1FFC).toNat + 7) 1 = false := by decide
theorem witness_OutOfBounds_fetch : ((at_ 0).setPc 0x9000).status = .running ∧ ((at_ 0).setPc 0x9000).pc.toNat % 4 = 0 ∧
    ((at_ 0).setPc 0x9000).inProg (((at_ 0).setPc 0x9000).pc.toNat + 3) 1 = false ∧
    ((at_ 0).setPc 0x9000).inStack (((at_ 0).setPc 0x9000).pc.toNat + 3) 1 = false := by decide
theorem witness_ProgramRegion : (at_ 0).cfg.disjoint (at_ 0).progSize ∧
    ((at_ 0).setReg 8 0x1008).inProg (((at_ 0).setReg 8 0x1008).effAddr 8 0).toNat 8 = true := by decide
theorem witness_OnlyStores : (at_ 0xE2F51FF8).status ≠ .notLoaded ∧
    after (step ((at_ 0xE2F51FF8).setReg 8 0x1122334455667788))
      (fun t => t.byteAt 0x8FFF ≠ ((at_ 0xE2F51FF8).setReg 8 0x1122334455667788).byteAt 0x8FFF) = some True := by
  refine ⟨by decide, congrArg some (propext ⟨fun _ => trivial, fun _ => by decide⟩)⟩
/-- The first and the last byte of the program region, and R41's disjointness. -/
theorem witness_OnlyStores_program : (at_ 0xE2F51FF8).status ≠ .notLoaded ∧
    (at_ 0xE2F51FF8).cfg.disjoint (at_ 0xE2F51FF8).progSize ∧
    (after (step (at_ 0xE2F51FF8)) (fun t => t.pc)).isSome = true ∧ (at_ 0xE2F51FF8).inProg 0x1000 1 = true ∧
    (at_ 0xE2F51FF8).inProg (0x1000 + (at_ 0xE2F51FF8).progSize - 1) 1 = true := by decide
/-- The two halves of R140's range for `ra = 0`. -/
theorem witness_EffectiveAddress : ((at_ 0).effAddr 0 0xFFF).toNat = 4095 ∧
    ((at_ 0).effAddr 0 0x1000).toNat = 2 ^ 64 - 4096 := by decide
/-- The highest loads that are valid and not valid. -/
theorem witness_LoadDoubleword : (at_ 0).valid ((at_ 0).reg 29 + (0x1FF8 : BitVec 13).signExtend 64) 8 .load = true ∧
    (at_ 0).valid ((at_ 0).reg 29 + (0x1FF9 : BitVec 13).signExtend 64) 8 .load = false := by decide
theorem witness_StoreDoubleword : (at_ 0).valid ((at_ 0).reg 29 + (0x1FF8 : BitVec 13).signExtend 64) 8 .store = true ∧
    (at_ 0).valid ((at_ 0).reg 29 + (0x1FF9 : BitVec 13).signExtend 64) 8 .store = false := by decide
theorem witness_StoreThenLoad : (at_ 0).valid ((at_ 0).effAddr 29 0x1FF8) 8 .store = true ∧
    after (exec (.sd 29 8 0x1FF8) (at_ 0)) (fun t => t.effAddr 29 0x1FF8) = some ((at_ 0).effAddr 29 0x1FF8) := by decide
theorem witness_FetchSeesStore : (at_ 0).valid ((at_ 0).effAddr 29 0x1FF8) 8 .store = true ∧
    ((at_ 0).effAddr 29 0x1FF8).toNat % 4 = 0 ∧ (at_ 0).cfg.stackBelowTop := by decide
theorem witness_TargetsChecked : isTransfer (.jal .a 2) = true ∧ (at_ 0xFF000002).status = .running ∧
    after (exec (.jal .a 2) (at_ 0xFF000002)) (fun t => t.pc.toNat % 4) = some 2 := by decide
theorem witness_TargetsChecked_unmapped : after (exec (.jal .a 0x400000) (at_ 0))
    (fun t => (t.pc.toNat % 4, t.valid t.pc 4 .fetch)) = some (0, false) := by decide
theorem witness_TargetsChecked_valid : after (exec (.jal .a 4) (at_ 0))
    (fun t => (t.pc.toNat % 4, t.valid t.pc 4 .fetch)) = some (0, true) := by decide
theorem witness_DefaultAdvance : (at_ 0).status = .running ∧ after (exec .syscall (at_ 0)) (fun t => t.status) = some .running ∧
    isTransfer .syscall = false := by decide
theorem witness_DefaultAdvance_fault :
    after (exec (.ld 0 8 0) (at_ 0)) (fun t => t.status) = some (.faulted (.memoryFault .load 0)) := by decide
theorem witness_DefaultAdvance_branches : (at_ 0).reg 8 ≠ (at_ 0).reg 29 ∧ (at_ 0).reg 8 = (at_ 0).reg 9 ∧
    ((at_ 0).reg 8).toInt ≤ ((at_ 0).reg 9).toInt := by decide
theorem witness_MisalignedOnly : (at_ 0xE3000002).cfg.basesAligned ∧ (at_ 0xE3000002).pc.toNat % 4 = 0 ∧
    after (step (at_ 0xE3000002)) (fun t => t.pc.toNat % 4) = some 2 := by decide
theorem witness_BranchToItself : (at_ 0xE3000000).runs (.beq 0 0 0) := ⟨rfl, 0xE3000000, rfl, by decide⟩
theorem witness_HaltPauses : (at_ 0xE5000000).inputs = [] := rfl
theorem witness_Resume_paused : (at_ 0).pause.status = .paused ∧
    ((at_ 0).pause.expecting [.resume 7]).inputs = .resume 7 :: [] := ⟨rfl, rfl⟩
theorem witness_Resume_not_paused : (at_ 0).status ≠ .paused := by decide
theorem witness_ConsoleOnlyBySyscall : (after (step (at_ 0xE5800000)) (fun t => t.console.length)) = some 1 ∧
    (after (step (at_ 0xC0000000)) (fun t => t.console.length)) = some 0 := by decide
theorem witness_PausedOnlyByHalt : (at_ 0xE5000000).status ≠ .paused ∧
    after (step (at_ 0xE5000000)) (fun t => t.status) = some .paused := by decide
theorem witness_PausedLeft : (at_ 0).pause.status = .paused ∧
    after (step ((at_ 0).pause.expecting [.resume 7])) (fun t => t.status) = some .running := by decide
theorem witness_PausedOnlyByHalt_f16 : (at_ 0).status = .running ∧ (at_ 0).fetch.toOption = some 0 ∧
    classify 0 = .f16 := by decide
theorem witness_FaultPriority_ld : (at_ 0xE2010000).status = .running ∧
    decodeWord (at_ 0xE2010000).cfg.ops ((at_ 0xE2010000).readWord (at_ 0xE2010000).pc) = .instr (.ld 0 8 0) ∧
    (at_ 0xE2010000).valid ((at_ 0xE2010000).effAddr 0 0) 8 .load = false := by decide
theorem witness_FaultPriority_sd :
    decodeWord (at_ 0xE2F50000).cfg.ops ((at_ 0xE2F50000).readWord (at_ 0xE2F50000).pc) = .instr (.sd 29 8 0) ∧
    (at_ 0xE2F50000).valid ((at_ 0xE2F50000).effAddr 29 0) 8 .store = false := by decide
theorem witness_FaultPriority_words :
    decodeWord (at_ 0).cfg.ops ((at_ 0).readWord (at_ 0).pc) = .decodeError ∧
    decodeWord (at_ 0xE6000000).cfg.ops ((at_ 0xE6000000).readWord (at_ 0xE6000000).pc) = .unknownOpcode := by decide
theorem witness_FaultsArePrecise : (at_ 0xE2F50000).status = .running ∧
    after (step (at_ 0xE2F50000)) (fun t => t.status) = some (.faulted (.memoryFault .store 0x9000)) := by decide
theorem witness_FaultedIsTerminal : ((at_ 0).raise (.decodeError 0)).status = .faulted (.decodeError 0) := rfl
theorem witness_WhatAnInstructionRaises : ∀ c, (at_ 0).status ≠ .faulted c := by intro c h; cases h
theorem witness_ZeroWord : (at_ 0).status = .running ∧ ((at_ 0).setPc 0x8000).pc.toNat % 4 = 0 ∧
    ((at_ 0).setPc 0x8000).valid ((at_ 0).setPc 0x8000).pc 4 .fetch = true ∧
    (∀ k < 4, ((at_ 0).setPc 0x8000).byteAt (((at_ 0).setPc 0x8000).pc.toNat + k) = 0) := by decide
/-- The longest image under the example parameters, and the shortest. -/
theorem witness_LaunchState : ([0xE5] : List Byte) ≠ [] ∧ Config.default.fits 1 ∧ Config.default.fits 0x7000 := by decide
theorem witness_RefusedLoads : (at_ 0).status ≠ .notLoaded := by decide
/-- A 6-byte image at its partial word (R213). -/
def partialWord : State := (State.reset.loaded [0xC0, 0, 0, 0, 0xE5, 0]).setPc 0x1004
theorem witness_PartialWord : partialWord.Inv ∧ partialWord.status = .running ∧ partialWord.progSize % 4 ≠ 0 ∧
    partialWord.pc.toNat = partialWord.cfg.progBase.toNat + 4 * (partialWord.progSize / 4) :=
  ⟨⟨by decide, by decide, by decide, fun _ => by decide, fun h => by cases h⟩, rfl, by decide, by decide⟩
theorem witness_StepKeepsInvariant : (at_ 0xE5000000).Inv ∧ (after (step (at_ 0xE5000000)) (fun t => t.pc)).isSome = true :=
  ⟨⟨by decide, by decide, by decide, fun _ => by decide, fun h => by cases h⟩, by decide⟩
theorem witness_LaunchParametersFixed : (after (step (at_ 0xC0000000)) (fun t => t.pc)).isSome = true ∧
    (at_ 0xC0000000).status ≠ .notLoaded := by decide
theorem witness_RunningSteps : (at_ 0).status = .running ∧ (at_ 0).pause.status = .paused ∧ (at_ 0).pause.inputs = [] :=
  ⟨rfl, rfl, rfl⟩
/-- A paused engine whose step answers a next state: with a resume queued, and with nothing queued. -/
theorem witness_PausedMoves : (at_ 0).pause.status = .paused ∧
    after (step ((at_ 0).pause.expecting [.resume 7, .load []])) (fun t => t.inputs) = some [.load []] ∧
    after (step (at_ 0).pause) (fun t => t.status) = some .paused := by decide
theorem witness_RunsEnd : (at_ 0).status = .running ∧ (at_ 0).inputs = [] := ⟨rfl, rfl⟩
/-- A running and a paused engine, the longest image and the shortest, and a stack content of the whole region. -/
theorem witness_Reload : (at_ 0).status = .running ∧ (at_ 0).pause.status = .paused ∧ State.reset.cfg.wf ∧ State.reset.cfg.fits 1 ∧ State.reset.cfg.fits 0x7000 ∧
    (List.replicate 0x1000 (0xAB : Byte)).length = State.reset.cfg.stackSize :=
  ⟨rfl, rfl, by decide, by decide, by decide, List.length_replicate⟩
theorem witness_Reload_first : State.reset.status = .notLoaded := rfl
theorem witness_Recovery : Config.default.wf ∧ Config.default.fits 1 ∧ Config.default.fits 0x7000 ∧
    ((at_ 0).raise (.decodeError 0)).status = .faulted (.decodeError 0) ∧
    after (((at_ 0).raise (.decodeError 0)).deliver (.resume 7)) (fun t => t.status) = some (.faulted (.decodeError 0)) := by
  decide
theorem witness_Snapshot : (0 : Nat) < (at_ 0).cfg.stackSize ∧ 0xFFF < (at_ 0).cfg.stackSize := by decide

end Sys2Proof.Tests
end

section
/-! SUPPORT. What a step keeps of the launch (spec R4, R35, R210). -/

namespace Sys2Proof.Machine

/-- No instruction touches the launch parameters or the size of the program region (R4). -/
theorem exec_keepsLaunch {i : Instr} {s t : State} (h : exec i s = .next t) : keepsLaunch s t := by
  rcases exec_cases i s with ⟨_, _, _, he⟩ | ⟨_, _, he⟩ | ⟨_, _, _, he⟩ | ⟨_, _, _, _, ⟨_, he⟩ | ⟨_, he⟩⟩ |
    ⟨_, _, _, _, ⟨_, he⟩ | ⟨_, he⟩⟩ | ⟨_, he⟩ | ⟨_, he⟩ <;>
  · obtain rfl := Host.Outcome.next.inj (he.symm.trans h)
    simp [keepsLaunch]

/-- An instruction keeps the run status, or it is HALT and pauses (R165), or it faults and does nothing else (R188). -/
theorem exec_status {i : Instr} {s t : State} (h : exec i s = .next t) :
    t.status = s.status ∨ (i = .halt ∧ t = s.pause) ∨ ∃ cause, t = s.raise cause := by
  rcases exec_cases i s with ⟨_, _, _, he⟩ | ⟨_, _, he⟩ | ⟨_, _, _, he⟩ | ⟨_, _, _, _, ⟨_, he⟩ | ⟨_, he⟩⟩ |
    ⟨_, _, _, _, ⟨_, he⟩ | ⟨_, he⟩⟩ | ⟨rfl, he⟩ | ⟨_, he⟩ <;>
  · obtain rfl := Host.Outcome.next.inj (he.symm.trans h)
    simp

/-- An instruction never goes back to the time before the load. -/
theorem exec_status_ne_notLoaded {i : Instr} {s t : State} (h : exec i s = .next t) (hs : s.status ≠ .notLoaded) :
    t.status ≠ .notLoaded := by
  rcases exec_status h with hst | ⟨_, rfl⟩ | ⟨_, rfl⟩
  · exact hst ▸ hs
  · simp
  · simp

/-- Waiting for the host keeps the launch parameters, the load event included (R211). -/
theorem awaitHost_cfg {s t : State} (h : s.awaitHost = .next t) : t.cfg = s.cfg := by
  rcases awaitHost_next h with ⟨_, rfl⟩ | ⟨_, _, _, _, _, _, rfl⟩ | ⟨_, _, _, ⟨_, rfl⟩ | ⟨_, rfl⟩⟩ <;> rfl

/-- Once an image is loaded, an event delivered while waiting keeps the program region and is no return to the time
before the load: the load event is the only one that sets the size, and it finds no program (R210, R215). -/
theorem awaitHost_keepsLoad {s t : State} (h : s.awaitHost = .next t) (hs : s.status ≠ .notLoaded) :
    t.progSize = s.progSize ∧ t.status ≠ .notLoaded := by
  rcases awaitHost_next h with ⟨_, rfl⟩ | ⟨_, _, _, hn, _⟩ | ⟨_, _, _, ⟨_, rfl⟩ | ⟨_, rfl⟩⟩
  · exact ⟨rfl, hs⟩
  · exact absurd hn hs
  · simp
  · exact ⟨rfl, hs⟩

/-- R4: every step keeps the launch parameters. -/
theorem step_cfg {s t : State} (h : step s = .next t) : t.cfg = s.cfg := by
  rcases step_next h with ⟨_, _, he⟩ | ⟨_, _, rfl, _⟩ | ⟨_, hw⟩
  · exact (exec_keepsLaunch he).1
  · rfl
  · exact awaitHost_cfg hw

/-- R35, R210: after the load every step keeps the program region and the load. -/
theorem step_keepsLoad {s t : State} (h : step s = .next t) (hs : s.status ≠ .notLoaded) :
    t.progSize = s.progSize ∧ t.status ≠ .notLoaded := by
  rcases step_next h with ⟨_, _, he⟩ | ⟨_, _, rfl, _⟩ | ⟨_, hw⟩
  · exact ⟨(exec_keepsLaunch he).2, exec_status_ne_notLoaded he hs⟩
  · simp
  · exact awaitHost_keepsLoad hw hs

/-- Settles O53: the parts are `step_cfg` and `step_keepsLoad`, each by what a step can do (`step_next`). -/
theorem launchParametersFixed : Obligations.LaunchParametersFixed := by
  unfold Obligations.LaunchParametersFixed
  exact fun _ _ h => ⟨step_cfg h, step_keepsLoad h⟩

end Sys2Proof.Machine
end

section
/-! SUPPORT. What a step can do to memory, and the invariant of the machine (spec R31, R41, R52, R54). -/

namespace Sys2Proof.Machine

/-! ### Memory after a step -/

/-- An instruction keeps memory, or it is an SD whose access is valid, and memory is as after that store (R142). -/
theorem exec_mem {i : Instr} {s t : State} (h : exec i s = .next t) :
    t.mem = s.mem ∨ ∃ ra rb imm, i = .sd ra rb imm ∧ s.valid (s.effAddr ra imm) 8 .store = true ∧
      t.mem = s.mem.write (s.effAddr ra imm).toNat 8 (s.reg rb) := by
  rcases exec_cases i s with ⟨_, _, _, he⟩ | ⟨_, _, he⟩ | ⟨_, _, _, he⟩ | ⟨_, _, _, _, ⟨_, he⟩ | ⟨_, he⟩⟩ |
    ⟨ra, rb, imm, hi, ⟨hv, he⟩ | ⟨_, he⟩⟩ | ⟨_, he⟩ | ⟨_, he⟩ <;>
  obtain rfl := Host.Outcome.next.inj (he.symm.trans h)
  case inr.inr.inr.inr.inl.inl => exact .inr ⟨ra, rb, imm, hi, hv, rfl⟩
  all_goals exact .inl (by simp)

/-- Once an image is loaded, an event delivered while waiting keeps memory. -/
theorem awaitHost_mem {s t : State} (h : s.awaitHost = .next t) (hs : s.status ≠ .notLoaded) : t.mem = s.mem := by
  rcases awaitHost_next h with ⟨_, rfl⟩ | ⟨_, _, _, hn, _⟩ | ⟨_, _, _, ⟨_, rfl⟩ | ⟨_, rfl⟩⟩
  · rfl
  · exact absurd hn hs
  · rfl
  · rfl

/-- After the load a step keeps memory, or it runs an SD whose access is valid, and memory is as after that store. -/
theorem step_mem {s t : State} (h : step s = .next t) (hs : s.status ≠ .notLoaded) :
    t.mem = s.mem ∨ ∃ ra rb imm, s.runs (.sd ra rb imm) ∧ s.valid (s.effAddr ra imm) 8 .store = true ∧
      t.mem = s.mem.write (s.effAddr ra imm).toNat 8 (s.reg rb) := by
  rcases step_next h with ⟨i, hr, he⟩ | ⟨_, _, rfl, _⟩ | ⟨_, hw⟩
  · rcases exec_mem he with hm | ⟨ra, rb, imm, rfl, hv, hm⟩
    · exact .inl hm
    · exact .inr ⟨ra, rb, imm, hr, hv, hm⟩
  · exact .inl rfl
  · exact .inl (awaitHost_mem hw hs)

/-- Each byte of a valid store is a byte of the stack region (R42, R52). -/
theorem inStack_of_valid_store {s : State} {addr : Dword} {n a : Nat} (hv : s.valid addr n .store = true)
    (hlo : addr.toNat ≤ a) (hhi : a < addr.toNat + n) : s.inStack a 1 = true := by
  obtain ⟨hbase, htop⟩ := valid_store_iff.1 hv
  exact inRegion_iff.2 ⟨by omega, by omega⟩

/-- A byte of the program region is no byte of the stack region, where the two do not overlap (R41). -/
theorem not_inStack_of_inProg {s : State} {a : Nat} (hd : s.cfg.disjoint s.progSize) (hp : s.inProg a 1 = true) :
    ¬ s.inStack a 1 = true := by
  intro hst
  have hprog := inRegion_iff.1 hp
  have hstack := inRegion_iff.1 hst
  simp only [Config.disjoint] at hd
  omega

/-- After the load a byte a step changes is in the stack region, and is one of the eight of the SD the step runs. -/
theorem step_byteAt_changed {s t : State} {a : Nat} (h : step s = .next t) (hs : s.status ≠ .notLoaded)
    (ha : t.byteAt a ≠ s.byteAt a) :
    s.inStack a 1 = true ∧
      ∃ ra rb imm, s.runs (.sd ra rb imm) ∧ (s.effAddr ra imm).toNat ≤ a ∧ a < (s.effAddr ra imm).toNat + 8 := by
  rw [byteAt_eq, byteAt_eq] at ha
  rcases step_mem h hs with hm | ⟨ra, rb, imm, hr, hv, hm⟩
  · exact absurd (by rw [hm]) ha
  · rw [hm] at ha
    have hlo : (s.effAddr ra imm).toNat ≤ a := not_lt.1 fun hlt => ha (byteAt_write_outside (.inl hlt))
    have hhi : a < (s.effAddr ra imm).toNat + 8 := not_le.1 fun hle => ha (byteAt_write_outside (.inr hle))
    exact ⟨inStack_of_valid_store hv hlo hhi, ra, rb, imm, hr, hlo, hhi⟩

/-- Settles O24: a changed byte is in the stack region (`step_byteAt_changed`), and no byte of the program region is
(`not_inStack_of_inProg`). -/
theorem onlyStoresChangeMemory : Obligations.OnlyStoresChangeMemory := by
  unfold Obligations.OnlyStoresChangeMemory
  refine fun s t hs h => ⟨fun a ha => step_byteAt_changed h hs ha, fun hd a hp => ?_⟩
  by_contra ha
  exact not_inStack_of_inProg hd hp (step_byteAt_changed h hs ha).1

/-! ### The invariant -/

/-- The invariant looks at the parameters, the size of the program region, memory, and whether there is a program. -/
theorem State.Inv.congr {s t : State} (hi : s.Inv) (hc : t.cfg = s.cfg) (hp : t.progSize = s.progSize)
    (hm : t.mem = s.mem) (hs : t.status = .notLoaded ↔ s.status = .notLoaded) : t.Inv where
  params := hc ▸ hi.params
  canonical := hm ▸ hi.canonical
  placed := by simpa only [State.inProg, State.inStack, hc, hp, hm] using hi.placed
  loaded ht := by rw [hc, hp]; exact hi.loaded (mt hs.2 ht)
  unloaded ht := hp ▸ hi.unloaded (hs.1 ht)

/-- A valid store keeps the invariant. -/
theorem State.Inv.writeDword {s : State} (hi : s.Inv) {addr : Dword} (v : Dword)
    (hv : s.valid addr 8 .store = true) : (s.writeDword addr v).Inv where
  params := hi.params
  canonical := write_wf hi.canonical _ _ _
  placed c hc := by
    rcases mem_write hc with hc | ⟨hlo, hhi⟩
    · exact hi.placed c hc
    · exact .inr (inStack_of_valid_store hv hlo hhi)
  loaded := hi.loaded
  unloaded := hi.unloaded

/-- Before the load every listed byte is in the stack region: there is no program region yet (R210). -/
theorem State.Inv.inStack_of_notLoaded {s : State} (hi : s.Inv) (hs : s.status = .notLoaded) {c : Host.Cell}
    (hc : c ∈ s.mem) : s.inStack c.1 1 = true := by
  refine (hi.placed c hc).resolve_left fun hp => ?_
  have hprog := inRegion_iff.1 hp
  have hsize := hi.unloaded hs
  omega

/-- The load of an image that obeys R41 keeps the invariant (R211). -/
theorem State.Inv.loadImage {s : State} (hi : s.Inv) (hs : s.status = .notLoaded) {image : List Byte}
    (hf : s.cfg.fits image.length) : (s.loaded image).Inv where
  params := hi.params
  canonical := writeList_wf hi.canonical _ _
  placed c hc := by
    rcases mem_writeList hc with hc | ⟨hlo, hhi⟩
    · exact .inr (hi.inStack_of_notLoaded hs hc)
    · exact .inl (inRegion_iff.2 ⟨hlo, hhi⟩)
  loaded _ := hf
  unloaded ht := by cases ht

/-- Before the load a step keeps the invariant: it delivers the load event, or changes the queue at most. -/
theorem State.Inv.step_of_notLoaded {s t : State} (hi : s.Inv) (hs : s.status = .notLoaded) (h : step s = .next t) :
    t.Inv := by
  rcases step_next h with ⟨_, ⟨hr, _⟩, _⟩ | ⟨hr, _⟩ | ⟨_, hw⟩
  · cases hs.symm.trans hr
  · cases hs.symm.trans hr
  · rcases awaitHost_next hw with ⟨_, rfl⟩ | ⟨image, rest, _, _, _, hf, rfl⟩ | ⟨_, _, _, ⟨hp, _⟩ | ⟨_, rfl⟩⟩
    · exact hi
    · have hq : ({ s with inputs := rest } : State).Inv := hi.congr rfl rfl rfl Iff.rfl
      exact hq.loadImage hs hf
    · cases hs.symm.trans hp
    · exact hi.congr rfl rfl rfl Iff.rfl

/-- After the load a step keeps the invariant: memory is as before or as after a valid store. -/
theorem State.Inv.step_of_loaded {s t : State} (hi : s.Inv) (hs : s.status ≠ .notLoaded) (h : step s = .next t) :
    t.Inv := by
  obtain ⟨hp, ht⟩ := step_keepsLoad h hs
  rcases step_mem h hs with hm | ⟨ra, rb, imm, _, hv, hm⟩
  · exact hi.congr (step_cfg h) hp hm (iff_of_false ht hs)
  · have hc : t.cfg = s.cfg := step_cfg h
    exact (hi.writeDword (s.reg rb) hv).congr hc hp hm (iff_of_false ht hs)

/-- Settles O52: the steps before the load (`State.Inv.step_of_notLoaded`) and those after it
(`State.Inv.step_of_loaded`). -/
theorem stepKeepsInvariant : Obligations.StepKeepsInvariant := by
  unfold Obligations.StepKeepsInvariant
  intro s t hi h
  by_cases hs : s.status = .notLoaded
  · exact hi.step_of_notLoaded hs h
  · exact hi.step_of_loaded hs h

end Sys2Proof.Machine
end

section
/-! SUPPORT. The register file (spec R20, R21, R23): what a write is read as, and what an instruction does to the
registers outside its row of the table. -/

namespace Sys2Proof.Machine

/-- Settles O12: the register written (`reg_setReg_same`) and every other (`reg_setReg_ne`). -/
theorem registerFile : Obligations.RegisterFile := by
  unfold Obligations.RegisterFile
  intro s r q v
  by_cases hq : q = r
  · subst hq
    by_cases h0 : q = 0#5 <;> simp [h0]
  · simp [hq, reg_setReg_ne]

/-! ### Destination 0 -/

/-- An instruction that writes one register and advances by 4 completes, with everything else as before. -/
theorem completesWriting_of_exec {i : Instr} {s : State} {r : RegIdx} {v : Dword}
    (h : exec i s = .next ((s.setReg r v).setPc (s.pc + 4))) : completesWriting i s r v := by
  refine ⟨_, h, by simp, fun q hq => ?_, rfl, fun a => ?_, ?_, ?_⟩
  · rw [setPc_reg, reg_setReg_ne s v hq]
  · rw [byteAt_eq, byteAt_eq, setPc_mem, setReg_mem]
  · simp [keepsRun]
  · simp [keepsLaunch]

/-- With destination 0 the value written is of no consequence (R21). -/
theorem completesWriting_zero {i : Instr} {s : State} {v : Dword} (h : completesWriting i s 0 v) :
    completesWriting i s 0 0 := h

/-- An ALU instruction with destination 0 does nothing but advance (R21). -/
theorem completesWriting_zero_of_alu {i : Instr} {s : State} {v : Dword} (h : aluResult s i = some (0, v)) :
    completesWriting i s 0 0 :=
  completesWriting_zero (completesWriting_of_exec (exec_alu h))

/-- Settles O13: register 0 reads 0 in every state (`reg_zero`), so after every instruction; the ALU instructions by
`completesWriting_zero_of_alu`, LD by its two equations. -/
theorem registerZero : Obligations.RegisterZero := by
  unfold Obligations.RegisterZero
  refine ⟨fun s v => ⟨reg_zero s, setReg_zero s v⟩, fun _ _ t _ => reg_zero t, fun s ra rb imm => ?_⟩
  have alu {i : Instr} {v : Dword} (h : aluResult s i = some (0, v)) := completesWriting_zero_of_alu h
  exact ⟨alu rfl, alu rfl, alu rfl, alu rfl, alu rfl, alu rfl, alu rfl, alu rfl, alu rfl,
    fun hv => completesWriting_zero (completesWriting_of_exec (exec_ld_valid hv)), exec_ld_invalid⟩

/-! ### The table of R23: what is written -/

/-- The destination of an ALU instruction is its row's one write. -/
theorem writesOf_of_aluResult {i : Instr} {s : State} {r : RegIdx} {v : Dword} (h : aluResult s i = some (r, v)) :
    writesOf i = [r] := by
  cases i <;> simp only [aluResult, Option.some.injEq, Prod.mk.injEq, reduceCtorEq] at h <;>
  · obtain ⟨rfl, _⟩ := h
    rfl

/-- A branch and JR write no register. -/
theorem writesOf_of_transferTarget {i : Instr} {s : State} {target : Dword} (h : transferTarget s i = some target) :
    writesOf i = [] := by
  cases i <;> simp only [transferTarget, reduceCtorEq] at h <;> rfl

/-- R23, "writes": a register outside the row keeps its value. -/
theorem exec_reg_of_not_mem_writesOf {i : Instr} {s t : State} {q : RegIdx} (h : exec i s = .next t)
    (hq : q ∉ writesOf i) : t.reg q = s.reg q := by
  rcases exec_cases i s with ⟨r, v, ha, he⟩ | ⟨_, _, he⟩ | ⟨_, _, rfl, he⟩ | ⟨_, _, _, rfl, ⟨_, he⟩ | ⟨_, he⟩⟩ |
    ⟨_, _, _, _, ⟨_, he⟩ | ⟨_, he⟩⟩ | ⟨_, he⟩ | ⟨_, he⟩ <;>
  obtain rfl := Host.Outcome.next.inj (he.symm.trans h)
  case inl =>
    rw [writesOf_of_aluResult ha, List.mem_singleton] at hq
    rw [setPc_reg, reg_setReg_ne s v hq]
  case inr.inr.inl | inr.inr.inr.inl.inl =>
    rw [writesOf, List.mem_singleton] at hq
    rw [setPc_reg, reg_setReg_ne s _ hq]
  all_goals simp

/-! ### The table of R23: what is read -/

section commute
variable (s : State) (q : RegIdx) (v : Dword)

theorem setPc_setReg (a : Dword) : (s.setReg q v).setPc a = (s.setPc a).setReg q v := by
  unfold State.setReg; split <;> rfl

theorem raise_setReg (c : FaultCause) : (s.setReg q v).raise c = (s.raise c).setReg q v := by
  unfold State.setReg; split <;> rfl

theorem pause_setReg : (s.setReg q v).pause = s.pause.setReg q v := by
  unfold State.setReg; split <;> rfl

theorem emit_setReg (x : Dword) : (s.setReg q v).emit x = (s.emit x).setReg q v := by
  unfold State.setReg; split <;> rfl

theorem writeDword_setReg (a x : Dword) : (s.setReg q v).writeDword a x = (s.writeDword a x).setReg q v := by
  unfold State.setReg; split <;> rfl

/-- The later of two writes to one register counts. -/
theorem setReg_setReg_same (w : Dword) : (s.setReg q v).setReg q w = s.setReg q w := by
  by_cases hq : q = 0#5
  · subst hq; rfl
  · simp [setReg_eq hq]

/-- Writes to two registers commute. -/
theorem setReg_setReg_ne {r : RegIdx} (w : Dword) (h : q ≠ r) :
    (s.setReg q v).setReg r w = (s.setReg r w).setReg q v := by
  by_cases hq : q = 0#5
  · subst hq; rfl
  · by_cases hr : r = 0#5
    · subst hr; rfl
    · have hne : (regSlot q).val ≠ (regSlot r).val := fun he => regSlot_ne hq hr h (Fin.ext he)
      simp [setReg_eq hq, setReg_eq hr, Vector.set_comm _ _ hne]

end commute

section reads
variable {i : Instr} {s s' t : State} {q : RegIdx} {v : Dword}

/-- What an ALU instruction writes depends on the registers of its row's reads only. -/
theorem aluResult_congr (hr : ∀ r ∈ readsOf i, s'.reg r = s.reg r) : aluResult s' i = aluResult s i := by
  cases i <;> simp_all [aluResult, readsOf]

/-- The target of a branch or JR depends on `pc` and the registers of its row's reads only. -/
theorem transferTarget_congr (hpc : s'.pc = s.pc) (hr : ∀ r ∈ readsOf i, s'.reg r = s.reg r) :
    transferTarget s' i = transferTarget s i := by
  cases i <;> simp_all [transferTarget, readsOf]

/-- An effective address depends on its base register only. -/
theorem effAddr_congr {ra : RegIdx} {imm : BitVec 13} (hr : s'.reg ra = s.reg ra) :
    s'.effAddr ra imm = s.effAddr ra imm := by
  simp only [State.effAddr, hr]

/-- Validity of an access depends on no register. -/
theorem valid_setReg (a : Dword) (n : Nat) (k : AccessKind) : (s.setReg q v).valid a n k = s.valid a n k :=
  valid_congr (setReg_cfg s q v) (setReg_progSize s q v) a n k

/-- A doubleword read depends on no register. -/
theorem readDword_setReg (a : Dword) : (s.setReg q v).readDword a = s.readDword a := by
  simp only [State.readDword, setReg_mem]

/-- `i` at `s` with `v` in register `q` answers `t`, or `t` with `v` in `q`, and the latter only if `i` does not write
`q` or faults. -/
def answersUpTo (q : RegIdx) (v : Dword) (i : Instr) (s t : State) : Prop :=
  exec i (s.setReg q v) = .next t ∨
    (exec i (s.setReg q v) = .next (t.setReg q v) ∧ (q ∈ writesOf i → ∃ c, t.status = .faulted c))

/-- An instruction that writes only `r`, with the same value whatever is in `q`, loses what was in `q` if `q` is `r`,
and keeps it if not. -/
theorem answersUpTo_of_write {r : RegIdx} {w p : Dword} (hw : writesOf i = [r])
    (h : exec i (s.setReg q v) = .next (((s.setReg q v).setReg r w).setPc p)) :
    answersUpTo q v i s ((s.setReg r w).setPc p) := by
  by_cases hq : q = r
  · subst hq
    exact .inl (by rw [h, setReg_setReg_same])
  · refine .inr ⟨by rw [h, setReg_setReg_ne s q v w hq, setPc_setReg], fun hm => ?_⟩
    exact absurd (List.mem_singleton.1 (hw ▸ hm)) hq

/-- An instruction that writes no register keeps what was in `q`. -/
theorem answersUpTo_of_no_write (hw : writesOf i = []) (h : exec i (s.setReg q v) = .next (t.setReg q v)) :
    answersUpTo q v i s t :=
  .inr ⟨h, fun hm => absurd (hw ▸ hm) List.not_mem_nil⟩

/-- An access that is not valid raises, whatever is in `q`. -/
theorem answersUpTo_of_raise {c : FaultCause} (h : exec i (s.setReg q v) = .next ((s.setReg q v).raise c)) :
    answersUpTo q v i s (s.raise c) :=
  .inr ⟨by rw [h, raise_setReg], fun _ => ⟨c, rfl⟩⟩

/-- R23, "reads": with another value in a register outside the row an instruction answers the same, up to that
register. -/
theorem exec_setReg (h : exec i s = .next t) (hq : q ∉ readsOf i) : answersUpTo q v i s t := by
  have hr : ∀ r ∈ readsOf i, (s.setReg q v).reg r = s.reg r :=
    fun r hr => reg_setReg_ne s v (ne_of_mem_of_not_mem hr hq)
  rcases exec_cases i s with ⟨r, w, ha, he⟩ | ⟨target, ha, he⟩ | ⟨form, imm, rfl, he⟩ |
    ⟨ra, rb, imm, rfl, ⟨hv, he⟩ | ⟨hv, he⟩⟩ | ⟨ra, rb, imm, rfl, ⟨hv, he⟩ | ⟨hv, he⟩⟩ | ⟨rfl, he⟩ | ⟨rfl, he⟩ <;>
  obtain rfl := Host.Outcome.next.inj (he.symm.trans h)
  · have ha' := (aluResult_congr hr).trans ha
    exact answersUpTo_of_write (writesOf_of_aluResult ha) (by rw [exec_alu ha', setReg_pc])
  · have ha' := (transferTarget_congr (setReg_pc s q v) hr).trans ha
    exact answersUpTo_of_no_write (writesOf_of_transferTarget ha) (by rw [exec_transfer ha', setPc_setReg])
  · exact answersUpTo_of_write rfl (by rw [exec_jal, setReg_pc])
  · have hea := effAddr_congr (imm := imm) (hr ra (by simp [readsOf]))
    exact answersUpTo_of_write rfl (by rw [exec_ld_valid (by rwa [hea, valid_setReg]), hea, readDword_setReg, setReg_pc])
  · have hea := effAddr_congr (imm := imm) (hr ra (by simp [readsOf]))
    exact answersUpTo_of_raise (by rw [exec_ld_invalid (by rwa [hea, valid_setReg]), hea])
  · have hea := effAddr_congr (imm := imm) (hr ra (by simp [readsOf]))
    refine answersUpTo_of_no_write rfl ?_
    rw [exec_sd_valid (by rwa [hea, valid_setReg]), hea, hr rb (by simp [readsOf]), writeDword_setReg,
      setPc_setReg, setReg_pc]
  · have hea := effAddr_congr (imm := imm) (hr ra (by simp [readsOf]))
    exact answersUpTo_of_raise (by rw [exec_sd_invalid (by rwa [hea, valid_setReg]), hea])
  · exact answersUpTo_of_no_write rfl (by rw [exec_halt, pause_setReg])
  · refine answersUpTo_of_no_write rfl ?_
    rw [exec_syscall, hr 1 (by simp [readsOf]), emit_setReg, setPc_setReg, setReg_pc]

end reads

/-- Settles O14: the registers an instruction leaves alone (`exec_reg_of_not_mem_writesOf`), and those that do not
influence it (`exec_setReg`). -/
theorem registerTable : Obligations.RegisterTable := by
  unfold Obligations.RegisterTable
  refine ⟨fun _ _ _ _ h hq => exec_reg_of_not_mem_writesOf h hq, fun i s t q v h hq => ?_⟩
  rcases exec_setReg (v := v) h hq with he | ⟨he, hfault⟩
  · exact ⟨t, he, rfl, rfl, rfl, fun _ => rfl, fun _ _ => rfl, fun _ _ => rfl⟩
  · refine ⟨_, he, by simp, by simp, by simp, fun a => ?_, fun r hne => reg_setReg_ne t v hne, fun hm hnf => ?_⟩
    · rw [byteAt_eq, byteAt_eq, setReg_mem]
    · obtain ⟨c, hc⟩ := hfault hm
      exact absurd hc (hnf c)

end Sys2Proof.Machine
end

section
/-! SUPPORT. The launch state and the snapshot (spec R33, R34, R210, R211). -/

namespace Sys2Proof.Machine

/-! ### The load of an image into a constructed engine -/

/-- After construction `x[29]` is `SP_INIT` (R33). -/
@[simp] theorem construct_reg_sp (c : Config) : (State.construct c).reg 29#5 = c.spInit := by
  rw [reg_eq (by decide)]
  exact Vector.getElem_set_self (by decide)

/-- After construction every register but `x[0]` and `x[29]` is as `REG_INIT` says (R33). -/
theorem construct_reg (c : Config) {r : RegIdx} (h0 : r ≠ 0) (hsp : r ≠ 29) :
    (State.construct c).reg r = c.regInit[regSlot r] := by
  have hne : (regSlot 29#5).val ≠ (regSlot r).val :=
    fun he => regSlot_ne h0 (by decide) hsp (Fin.ext he.symm)
  rw [reg_eq h0]
  exact Vector.getElem_set_ne (by decide) (regSlot r).isLt hne

/-- The image stands at `PROG_BASE` verbatim (R211). -/
theorem byteAt_loaded_image (s : State) {image : List Byte} {i : Nat} (h : i < image.length) :
    (s.loaded image).byteAt (s.cfg.progBase.toNat + i) = image[i] :=
  byteAt_writeList h

/-- The load of an image that obeys R41 leaves the stack region alone (R211). -/
theorem byteAt_loaded_stack {s : State} {image : List Byte} {a : Nat} (hf : s.cfg.fits image.length)
    (ha : s.inStack a 1 = true) : (s.loaded image).byteAt a = s.byteAt a := by
  obtain ⟨_, _, hd⟩ := hf
  have hstack := inRegion_iff.1 ha
  refine byteAt_writeList_outside ?_
  simp only [Config.disjoint] at hd
  omega

/-- The step of an engine without a program whose next event is the load of an image that obeys R41. -/
theorem step_load {s : State} {image : List Byte} {rest : List HostEvent} (hs : s.status = .notLoaded)
    (hi : s.inputs = .load image :: rest) (hf : s.cfg.fits image.length) :
    step s = .next ((s.expecting rest).loaded image) := by
  calc step s
    _ = s.awaitHost := by simp only [step, State.engineStep, hs]
    _ = (s.expecting rest).load image := by simp only [State.awaitHost, hi]; rfl
    _ = .next ((s.expecting rest).loaded image) := load_eq_next hs hf

/-- Settles O48: `step_load` at the constructed engine; the registers and the stack are as constructed, the image is as
`byteAt_loaded_image` says. -/
theorem launchState : Obligations.LaunchState := by
  unfold Obligations.LaunchState
  intro c image rest _ hf
  have hstep : step ((State.construct c).expecting (.load image :: rest)) =
      .next (((State.construct c).expecting rest).loaded image) := step_load rfl rfl hf
  exact ⟨_, hstep, rfl, rfl, rfl, fun i h => byteAt_loaded_image _ h, fun a ha => byteAt_loaded_stack hf ha,
    reg_zero _, construct_reg_sp c, fun r h0 hsp => construct_reg c h0 hsp, rfl, rfl, rfl⟩

/-! ### The snapshot -/

/-- Settles O56: each list of the snapshot holds at place `i` what the state holds for `i`. -/
theorem snapshotShowsState : Obligations.SnapshotShowsState := by
  unfold Obligations.SnapshotShowsState
  refine fun s => ⟨rfl, fun r => ?_, fun i hi => ?_⟩
  · have hr : r.toNat < 32 := r.isLt
    simp [State.snapshot, hr]
  · simp [State.snapshot, hi]

end Sys2Proof.Machine
end

section
/-! SUPPORT. Memory as big-endian bytes, and when an access faults (spec R42 to R46, R51, R52, R57, R59), with the
invariant at reset. -/

namespace Sys2Proof.Machine

/-! ### Reads (R43) -/

theorem read_one (m : Memory) (a : Nat) : m.read a 1 = m.byteAt a :=
  BitVec.zero_width_append 0#0 (m.byteAt a)

theorem read_four (m : Memory) (a : Nat) :
    m.read a 4 = m.byteAt a ++ m.byteAt (a + 1) ++ m.byteAt (a + 2) ++ m.byteAt (a + 3) := by
  rw [read_succ m a 3, read_succ m a 2, read_succ m a 1, read_one]

/-- Settles O17: `read_succ`, which puts the byte at the highest address last, down to the first byte. -/
theorem readsAreBigEndian : Obligations.ReadsAreBigEndian := by
  unfold Obligations.ReadsAreBigEndian
  refine fun s addr => ⟨read_four s.mem addr.toNat, ?_⟩
  rw [State.readDword, read_succ s.mem _ 7, read_succ s.mem _ 6, read_succ s.mem _ 5, read_succ s.mem _ 4, read_four]
  rfl

/-- Byte `i` of a read, counted from the most significant, is the byte at `a + i` (R43). -/
theorem extractLsb'_read (m : Memory) (a : Nat) {i n : Nat} (h : i < n) :
    (m.read a n).extractLsb' (8 * (n - i - 1)) 8 = m.byteAt (a + i) := by
  induction n with
  | zero => omega
  | succ n ih =>
    rw [read_succ]
    by_cases hi : i = n
    · subst hi
      rw [show 8 * (i + 1 - i - 1) = 0 by omega]
      exact BitVec.extractLsb'_append_eq_right
    · have hstart : 8 * (n + 1 - i - 1) - 8 = 8 * (n - i - 1) := by omega
      calc (m.read a n ++ m.byteAt (a + n)).extractLsb' (8 * (n + 1 - i - 1)) 8
        _ = (m.read a n).extractLsb' (8 * (n + 1 - i - 1) - 8) 8 := BitVec.extractLsb'_append_eq_of_le (by omega)
        _ = m.byteAt (a + i) := by rw [hstart, ih (by omega)]

/-! ### Writes (R44) -/

/-- A slice of a slice is the slice at the sum of the two starts. -/
theorem extractLsb'_extractLsb' {w start len start' len' : Nat} (x : BitVec w) (h : start' + len' ≤ len) :
    (x.extractLsb' start len).extractLsb' start' len' = x.extractLsb' (start + start') len' := by
  apply BitVec.eq_of_getLsbD_eq
  intro i hi
  have hlt : start' + i < len := by omega
  simp [hi, hlt, Nat.add_assoc]

/-- A wide write puts byte `i` of the value, counted from the most significant, at `a + i` (R44). -/
theorem byteAt_write (m : Memory) (a : Nat) {i n : Nat} (v : BitVec (8 * n)) (h : i < n) :
    (m.write a n v).byteAt (a + i) = v.extractLsb' (8 * (n - i - 1)) 8 := by
  induction n with
  | zero => omega
  | succ n ih =>
    rw [write_succ, byteAt_setByte]
    by_cases hi : i = n
    · subst hi
      rw [if_pos rfl, show 8 * (i + 1 - i - 1) = 0 by omega]
    · have hstart : 8 + 8 * (n - i - 1) = 8 * (n + 1 - i - 1) := by omega
      rw [if_neg (by omega), ih _ (by omega), extractLsb'_extractLsb' v (by omega), hstart]

/-- Settles O18: the bytes written (`byteAt_write`) and the others (`byteAt_write_outside`). -/
theorem writesAreBigEndian : Obligations.WritesAreBigEndian := by
  unfold Obligations.WritesAreBigEndian
  exact fun m addr _ v => ⟨fun _ hi => byteAt_write m addr v hi, fun _ ha => byteAt_write_outside ha⟩

/-! ### Reads after a write (R46, R59) -/

/-- A read of `k` bytes inside the `n` just written sees that part of the value, most significant byte first. -/
theorem read_write (m : Memory) (a : Nat) {j k n : Nat} (v : BitVec (8 * n)) (h : j + k ≤ n) :
    (m.write a n v).read (a + j) k = v.extractLsb' (8 * (n - j - k)) (8 * k) := by
  induction k with
  | zero => exact BitVec.eq_of_zero_length rfl
  | succ k ih =>
    have hbyte : (m.write a n v).byteAt (a + j + k) = v.extractLsb' (8 * (n - j - (k + 1))) 8 := by
      rw [Nat.add_assoc, byteAt_write m a v (by omega), show n - (j + k) - 1 = n - j - (k + 1) by omega]
    rw [read_succ, ih (by omega), hbyte]
    exact BitVec.extractLsb'_append_extractLsb'_eq_extractLsb' (by omega)

/-- A doubleword is read back as it was written (R46). -/
theorem read_write_dword (m : Memory) (a : Nat) (v : Dword) : (m.write a 8 v).read a 8 = v := by
  have h := read_write m a (j := 0) (k := 8) (n := 8) v (by omega)
  exact h.trans BitVec.extractLsb'_eq_self

/-- The upper half of a written doubleword stands at its address (R59). -/
theorem read_write_upper (m : Memory) (a : Nat) (v : Dword) : (m.write a 8 v).read a 4 = v.extractLsb' 32 32 :=
  read_write m a (j := 0) (k := 4) (n := 8) v (by omega)

/-- The lower half of a written doubleword stands 4 bytes on (R59). -/
theorem read_write_lower (m : Memory) (a : Nat) (v : Dword) :
    (m.write a 8 v).read (a + 4) 4 = v.extractLsb' 0 32 :=
  read_write m a (j := 4) (k := 4) (n := 8) v (by omega)

/-- Byte writes elsewhere leave a byte alone. -/
theorem byteAt_foldl_setByte {l : List (Nat × Byte)} {a : Nat} (h : ∀ c ∈ l, c.1 ≠ a) (m : Memory) :
    (l.foldl (fun m c => m.setByte c.1 c.2) m).byteAt a = m.byteAt a := by
  induction l generalizing m with
  | nil => rfl
  | cons c rest ih =>
    obtain ⟨hc, hrest⟩ := List.forall_mem_cons.1 h
    rw [List.foldl_cons, ih hrest, byteAt_setByte, if_neg hc.symm]

/-- Settles O19: the later writes keep the eight bytes (`byteAt_foldl_setByte`), which read as written
(`read_write_dword`). -/
theorem doublewordRoundTrip : Obligations.DoublewordRoundTrip := by
  unfold Obligations.DoublewordRoundTrip
  intro m a v later hlater
  refine (read_congr fun i hi => byteAt_foldl_setByte (fun c hc => ?_) _).trans (read_write_dword m a v)
  have := hlater c hc
  omega

/-- Settles O20: the halves by `read_write`, the bytes by `extractLsb'_read`. -/
theorem mixedWidths : Obligations.MixedWidths := by
  unfold Obligations.MixedWidths
  refine ⟨fun m a v => ⟨read_write_upper m a v, read_write_lower m a v⟩, fun m a i hi => ?_⟩
  rw [show 7 - i = 8 - i - 1 by omega]
  exact extractLsb'_read m a hi

/-! ### Validity (R42) and what faults (R51, R52) -/

/-- Settles O21: the program region is for reads, the stack region for every kind. -/
theorem validAccess : Obligations.ValidAccess := by
  unfold Obligations.ValidAccess
  intro s addr n kind
  by_cases hk : kind = .store
  · subst hk
    rw [valid_store_iff]
    simp
  · rw [valid_read_iff hk, State.inProg, State.inStack, inRegion_iff, inRegion_iff]
    simp [hk]

/-- Each byte of an access inside a region is inside it. -/
theorem inRegion_byte {base size addr n k : Nat} (h : inRegion base size addr n = true) (hk : k < n) :
    inRegion base size (addr + k) 1 = true := by
  obtain ⟨hbase, htop⟩ := inRegion_iff.1 h
  exact inRegion_iff.2 ⟨by omega, by omega⟩

/-- No access with a byte outside both regions is valid (R51). -/
theorem valid_eq_false_of_byte_outside {s : State} {addr : Dword} {n k : Nat} (hk : k < n)
    (hp : s.inProg (addr.toNat + k) 1 = false) (hst : s.inStack (addr.toNat + k) 1 = false) (kind : AccessKind) :
    s.valid addr n kind = false := by
  have hprog : s.inProg addr.toNat n = false :=
    Bool.eq_false_iff.2 fun h => Bool.eq_false_iff.1 hp (inRegion_byte h hk)
  have hstack : s.inStack addr.toNat n = false :=
    Bool.eq_false_iff.2 fun h => Bool.eq_false_iff.1 hst (inRegion_byte h hk)
  simp [State.valid, hprog, hstack]

/-- No store into the program region is valid, where the regions do not overlap (R41, R52). -/
theorem valid_store_eq_false_of_inProg {s : State} {addr : Dword} {n : Nat} (hn : 0 < n)
    (hd : s.cfg.disjoint s.progSize) (hp : s.inProg addr.toNat n = true) : s.valid addr n .store = false :=
  Bool.eq_false_iff.2 fun hv =>
    not_inStack_of_inProg hd (inRegion_byte hp hn) (inStack_of_valid_store hv (by omega) (by omega))

/-- A fetch at an aligned `pc` whose access is not valid (R101). -/
theorem fetch_eq_memoryFault {s : State} (ha : s.pc.toNat % 4 = 0) (hv : s.valid s.pc 4 .fetch = false) :
    s.fetch = .error (.memoryFault .fetch s.pc) := by
  simp [State.fetch, fetchAlign, fetchBytes, ha, hv]

/-- A running engine whose fetch raises takes the fault and does nothing else (R188). -/
theorem step_of_fetch_error {s : State} {cause : FaultCause} (hs : s.status = .running)
    (hf : s.fetch = .error cause) : step s = .next (s.raise cause) := by
  simp only [step, State.engineStep, hs, State.cycle, hf]

/-- Settles O22: such an access is not valid (`valid_eq_false_of_byte_outside`), and each of the three raises then. -/
theorem outOfBoundsFaults : Obligations.OutOfBoundsFaults := by
  unfold Obligations.OutOfBoundsFaults
  refine ⟨fun s ra rb imm k hk hp hst => ?_, fun s k hs ha hk hp hst => ?_⟩
  · have hv := valid_eq_false_of_byte_outside hk hp hst
    exact ⟨exec_ld_invalid (hv .load), exec_sd_invalid (hv .store)⟩
  · exact step_of_fetch_error hs (fetch_eq_memoryFault ha (valid_eq_false_of_byte_outside hk hp hst .fetch))

/-- Settles O23: the store is not valid (`valid_store_eq_false_of_inProg`), the load is. -/
theorem programRegionAccess : Obligations.ProgramRegionAccess := by
  unfold Obligations.ProgramRegionAccess
  intro s ra rb imm hd hp
  have hload : s.valid (s.effAddr ra imm) 8 .load = true := (valid_read_iff (by decide)).2 (.inl hp)
  exact ⟨exec_sd_invalid (valid_store_eq_false_of_inProg (by decide) hd hp),
    completesWriting_of_exec (exec_ld_valid hload)⟩

/-! ### A read after SD (R46, R57) -/

/-- Where a store is valid, an access of any kind to some of its bytes is. -/
theorem valid_of_valid_store {s : State} {addr addr' : Dword} {n k : Nat} (hv : s.valid addr n .store = true)
    (hlo : addr.toNat ≤ addr'.toNat) (hhi : addr'.toNat + k ≤ addr.toNat + n) (kind : AccessKind) :
    s.valid addr' k kind = true := by
  obtain ⟨hbase, htop⟩ := valid_store_iff.1 hv
  have hst : s.inStack addr'.toNat k = true := inRegion_iff.2 ⟨by omega, by omega⟩
  simp [State.valid, hst]

/-- After SD a load at its address reads the value it stored (R46). -/
theorem readDword_of_stored (s : State) (addr v pc : Dword) : ((s.writeDword addr v).setPc pc).readDword addr = v := by
  rw [State.readDword, setPc_mem, writeDword_mem, read_write_dword]

/-- Settles O28: after SD the access of LD is valid, for no region has moved, and reads what was written
(`readDword_of_stored`). -/
theorem storeThenLoadReturnsValue : Obligations.StoreThenLoadReturnsValue := by
  unfold Obligations.StoreThenLoadReturnsValue
  intro s ra rb rc rd imm imm' hv
  refine ⟨_, exec_sd_valid hv, fun hea => completesWriting_of_exec ?_⟩
  have hload : s.valid (s.effAddr ra imm) 8 .load = true := valid_of_valid_store hv le_rfl le_rfl .load
  rw [exec_ld_valid, hea, readDword_of_stored]
  rw [hea]
  exact (valid_congr rfl rfl _ _ _).trans hload

/-- After SD the fetch of a word inside the eight bytes stored gives what stands there (R57). -/
theorem fetch_of_stored {s : State} {addr pc : Dword} (hv : s.valid addr 8 .store = true) (ha : pc.toNat % 4 = 0)
    (hlo : addr.toNat ≤ pc.toNat) (hhi : pc.toNat ≤ addr.toNat + 4) (v next : Dword) :
    (((s.writeDword addr v).setPc next).setPc pc).fetch = .ok ((s.mem.write addr.toNat 8 v).read pc.toNat 4) := by
  have hfetch : s.valid pc 4 .fetch = true := valid_of_valid_store hv hlo (by omega) .fetch
  exact fetch_eq_ok ha hfetch

/-- Settles O29: both words are fetched (`fetch_of_stored`) and are the halves of the value (`read_write_upper`,
`read_write_lower`); below the top of the address space `ea + 4` does not wrap. -/
theorem fetchSeesStore : Obligations.FetchSeesStore := by
  unfold Obligations.FetchSeesStore
  intro s ra rb imm hv ha htop
  refine ⟨_, exec_sd_valid hv, ?_, ?_⟩
  · rw [fetch_of_stored hv ha le_rfl (by omega), read_write_upper]
  · have hnext : (s.effAddr ra imm + 4).toNat = (s.effAddr ra imm).toNat + 4 := by
      obtain ⟨_, hend⟩ := valid_store_iff.1 hv
      simp only [Config.stackBelowTop] at htop
      rw [BitVec.toNat_add]
      exact Nat.mod_eq_of_lt (by simp; omega)
    rw [fetch_of_stored hv (by omega) (by omega) (by omega), hnext, read_write_lower]

/-! ### The invariant at reset -/

/-- A constructed engine meets the invariant when its parameters obey R4 and R41 (R210). -/
theorem State.Inv.construct {c : Config} (h : c.wf) : (State.construct c).Inv where
  params := h
  canonical := ⟨List.Pairwise.nil, by simp [State.construct]⟩
  placed := by simp [State.construct]
  loaded hs := absurd rfl hs
  unloaded _ := rfl

/-- Settles O51: reset constructs an engine with the default parameters, which obey R4 and R41. -/
theorem resetMeetsInvariant : Obligations.ResetMeetsInvariant := by
  unfold Obligations.ResetMeetsInvariant
  exact State.Inv.construct (c := Config.default) (by decide)

end Sys2Proof.Machine
end

section
/-! SUPPORT. The decoder as a table of opcode rows, and the round trips of decode and encode (spec R70 to R84). -/

namespace Sys2Proof.Machine

/-! ### The bits of a word that an instruction keeps (R72, R75) -/

/-- A slice of a word is the same in every word that agrees with it on a mask, where the mask covers the slice. -/
theorem extractLsb'_congr_of_and {n : Nat} {w w' mask : BitVec n} {start len : Nat} (h : w' &&& mask = w &&& mask)
    (hm : mask.extractLsb' start len = BitVec.allOnes len) : w'.extractLsb' start len = w.extractLsb' start len := by
  have hslice := congrArg (BitVec.extractLsb' start len) h
  rwa [BitVec.extractLsb'_and, BitVec.extractLsb'_and, hm, BitVec.and_allOnes, BitVec.and_allOnes] at hslice

/-- The upper bits of a word over zeros are the word with its lower bits cleared. -/
theorem extractLsb'_append_zero {n k : Nat} (x : BitVec (n + k)) :
    x.extractLsb' k n ++ 0#k = x &&& (BitVec.allOnes (n + k) <<< k) := by
  apply BitVec.eq_of_getLsbD_eq
  intro i hi
  rw [BitVec.getLsbD_append, BitVec.getLsbD_and, BitVec.getLsbD_shiftLeft]
  by_cases hk : i < k
  · simp [hk]
  · have hlt : i - k < n + k := by omega
    have hn : i - k < n := by omega
    simp [hk, hi, hlt, hn, Nat.add_sub_cancel' (not_lt.1 hk)]

/-- The three masks of the formats. -/
theorem keptBits_cases (i : Instr) :
    keptBits i = 0xFFFFFF00 ∨ keptBits i = 0xFF800000 ∨ keptBits i = 0xFFFFFFFF := by
  cases i <;> simp [keptBits]

section congr
variable {w w' : Word} {i : Instr}

/-- No instruction ignores a bit of the opcode field. -/
theorem opField_congr (h : w' &&& keptBits i = w &&& keptBits i) : opField w' = opField w := by
  refine extractLsb'_congr_of_and h ?_
  rcases keptBits_cases i with hk | hk | hk <;> rw [hk] <;> rfl

/-- No instruction ignores a bit of the family field. -/
theorem classify_congr (h : w' &&& keptBits i = w &&& keptBits i) : classify w' = classify w := by
  have hfam : famField w' = famField w := by
    refine extractLsb'_congr_of_and h ?_
    rcases keptBits_cases i with hk | hk | hk <;> rw [hk] <;> rfl
  rw [classify, hfam, classify]

end congr

/-! ### The family of a word (R71) -/

section family
variable {w : Word}

theorem classify_eq_f24 (h : famField w = 0b110#3) : classify w = .f24 := if_pos h

theorem classify_eq_f32 (h : famField w = 0b111#3) : classify w = .f32 := by
  rw [classify, h]
  rfl

theorem famField_of_f24 (h : classify w = .f24) : famField w = 0b110#3 := by
  rcases classify_cases w with ⟨_, hf⟩ | ⟨hc, _⟩ | ⟨hc, _⟩
  · exact hf
  · cases hc.symm.trans h
  · cases hc.symm.trans h

theorem famField_of_f32 (h : classify w = .f32) : famField w = 0b111#3 := by
  rcases classify_cases w with ⟨hc, _⟩ | ⟨_, hf⟩ | ⟨hc, _⟩
  · cases hc.symm.trans h
  · exact hf
  · cases hc.symm.trans h

end family

/-! ### The decoder as a table of rows (R77 to R79, R103, R104)

A row is an opcode value and what a word with that opcode decodes to. -/

/-- A row of an instruction with three registers (R72). -/
def regRow (op : Op) (c : RegIdx → RegIdx → RegIdx → Instr) : Op × (Word → Instr) :=
  (op, fun w => c (raField w) (rbField w) (rcField w))

/-- A row of an instruction with two registers and an immediate (R73). -/
def immRow (op : Op) (c : RegIdx → RegIdx → BitVec 13 → Instr) : Op × (Word → Instr) :=
  (op, fun w => c (raField w) (rbField w) (imm13Field w))

/-- A row of one of JAL's two opcode values (R74). -/
def jalRow (op : Op) (form : JalForm) : Op × (Word → Instr) := (op, fun w => .jal form (imm23Field w))

/-- A row of an instruction without operands (R75). -/
def ctlRow (op : Op) (i : Instr) : Op × (Word → Instr) := (op, fun _ => i)

/-- The rows of a family, in the order in which the dispatch compares them. -/
def familyRows (m : OpMap) : Family → List (Op × (Word → Instr))
  | .f16 => []
  | .f24 => [regRow m.f24.add .add, regRow m.f24.sub .sub, regRow m.f24.and .and, regRow m.f24.or .or,
      regRow m.f24.xor .xor]
  | .f32 => [jalRow m.f32.jalA .a, jalRow m.f32.jalB .b,
      immRow m.f32.addi .addi, immRow m.f32.andi .andi, immRow m.f32.ori .ori, immRow m.f32.xori .xori,
      immRow m.f32.ld .ld, immRow m.f32.sd .sd, immRow m.f32.beq .beq, immRow m.f32.bne .bne, immRow m.f32.blt .blt,
      ctlRow m.f32.jr .jr, ctlRow m.f32.halt .halt, ctlRow m.f32.syscall .syscall]

/-- What the first row with the opcode of `w` decodes it to. -/
def firstRow (w : Word) : List (Op × (Word → Instr)) → Decoded
  | [] => .unknownOpcode
  | r :: rest => if opField w = r.1 then .instr (r.2 w) else firstRow w rest

/-- The tie to the model: both dispatches take the first row of their family. -/
theorem decodeWord_eq_firstRow (m : OpMap) (w : Word) :
    decodeWord m w = if classify w = .f16 then .decodeError else firstRow w (familyRows m (classify w)) := by
  unfold decodeWord
  cases classify w <;> rfl

section rows
variable {w : Word} {rows : List (Op × (Word → Instr))} {i : Instr}

/-- A word that decodes by some row decodes by it whatever else is in the word, for the opcode alone finds the row. -/
theorem firstRow_instr (h : firstRow w rows = .instr i) :
    ∃ r ∈ rows, opField w = r.1 ∧ r.2 w = i ∧
      ∀ w', opField w' = opField w → firstRow w' rows = .instr (r.2 w') := by
  induction rows with
  | nil => cases h
  | cons r rest ih =>
    rw [firstRow] at h
    by_cases hr : opField w = r.1
    · rw [if_pos hr] at h
      exact ⟨r, List.mem_cons_self, hr, Decoded.instr.inj h, fun w' hw' => if_pos (hw'.trans hr)⟩
    · rw [if_neg hr] at h
      obtain ⟨q, hq, hop, hi, hall⟩ := ih h
      refine ⟨q, List.mem_cons_of_mem _ hq, hop, hi, fun w' hw' => ?_⟩
      rw [firstRow, hw', if_neg hr, hall w' hw']

/-- Where no opcode value has two rows, the row of a word's opcode is the one it decodes by. -/
theorem firstRow_of_mem (hd : (rows.map Prod.fst).Nodup) {r : Op × (Word → Instr)} (hr : r ∈ rows)
    (hop : opField w = r.1) : firstRow w rows = .instr (r.2 w) := by
  induction rows with
  | nil => cases hr
  | cons q rest ih =>
    obtain ⟨hq, hrest⟩ := List.nodup_cons.1 hd
    rcases List.mem_cons.1 hr with rfl | hr
    · exact if_pos hop
    · have hne : opField w ≠ q.1 := fun he => hq (he ▸ hop ▸ List.mem_map_of_mem hr)
      rw [firstRow, if_neg hne, ih hrest hr]

/-- A word whose opcode has a row decodes to an instruction. -/
theorem firstRow_of_op_mem (h : opField w ∈ rows.map Prod.fst) : ∃ i, firstRow w rows = .instr i := by
  induction rows with
  | nil => cases h
  | cons r rest ih =>
    rw [firstRow]
    by_cases hr : opField w = r.1
    · exact ⟨_, if_pos hr⟩
    · rw [if_neg hr]
      exact ih ((List.mem_cons.1 h).resolve_left hr)

end rows

/-- The opcode values of a family's rows are those of its map; JAL's two come first (R79). -/
theorem familyRows_ops_perm (m : OpMap) (fam : Family) :
    ((familyRows m fam).map Prod.fst).Perm (familyValues m fam) := by
  cases fam with
  | f16 => exact .refl _
  | f24 => exact .refl _
  | f32 => exact List.perm_append_comm (l₁ := [m.f32.jalA, m.f32.jalB])

/-- Under injective maps no opcode value has two rows in a family. -/
theorem familyRows_nodup {m : OpMap} (hm : m.wf) (fam : Family) : ((familyRows m fam).map Prod.fst).Nodup := by
  refine (familyRows_ops_perm m fam).nodup_iff.2 ?_
  cases fam with
  | f16 => exact List.nodup_nil
  | f24 => exact hm.1
  | f32 => exact hm.2

/-! ### Decode of encode (R84) -/

/-- An instruction's word has the opcode of one of its family's rows, which reads the instruction back. -/
theorem encode_row (m : OpMap) (i : Instr) : ∃ r ∈ familyRows m (classify (encode m i)),
    opField (encode m i) = r.1 ∧ r.2 (encode m i) = i := by
  cases i with
  | add | sub | and | or | xor => simp [encode, familyRows, regRow]
  | addi | andi | ori | xori | ld | sd | beq | bne | blt | jr | halt | syscall =>
    simp [encode, familyRows, immRow, jalRow, ctlRow]
  | jal form imm => cases form <;> simp [encode, familyRows, immRow, jalRow, ctlRow, OpMap32.jal]

/-- The word of an instruction decodes to it, under injective maps (R84). -/
theorem decodeWord_encode {m : OpMap} (hm : m.wf) (i : Instr) : decodeWord m (encode m i) = .instr i := by
  obtain ⟨r, hr, hop, hi⟩ := encode_row m i
  have hfam : classify (encode m i) ≠ .f16 := by
    intro hf
    rw [hf] at hr
    cases hr
  rw [decodeWord_eq_firstRow, if_neg hfam, firstRow_of_mem (familyRows_nodup hm _) hr hop, hi]

/-- Settles O3: `decodeWord_encode`, and for the bytes `decodeBytes_wordBytes`. -/
theorem decodeOfEncodeIsInstruction : Obligations.DecodeOfEncodeIsInstruction := by
  unfold Obligations.DecodeOfEncodeIsInstruction
  refine fun m i rest hm => ⟨decodeWord_encode hm i, ?_⟩
  rw [encodeBytes, decodeBytes_wordBytes, decodeWord_encode hm]

/-! ### Encode of decode (R84) -/

section fields
variable {w : Word}

/-- A word of F24 is put together from its fields, but for bits 7:0 (R72). -/
theorem encF24_fields (hf : famField w = 0b110#3) :
    encF24 (opField w) (rcField w) (raField w) (rbField w) = w &&& 0xFFFFFF00 := by
  have hfields : famField w ++ opField w ++ raField w ++ rbField w ++ rcField w = w.extractLsb' 8 24 := by
    simp only [famField, opField, raField, rbField, rcField, BitVec.extractLsb'_append_extractLsb'_eq_extractLsb']
  rw [encF24, ← hf, hfields]
  exact extractLsb'_append_zero (n := 24) (k := 8) w

/-- A word of F32I is put together from its fields (R73). -/
theorem encF32I_fields (hf : famField w = 0b111#3) :
    encF32I (opField w) (rbField w) (raField w) (imm13Field w) = w &&& 0xFFFFFFFF := by
  have hfields : famField w ++ opField w ++ raField w ++ rbField w ++ imm13Field w = w.extractLsb' 0 32 := by
    simp only [famField, opField, raField, rbField, imm13Field, BitVec.extractLsb'_append_extractLsb'_eq_extractLsb']
  rw [encF32I, ← hf, hfields]
  exact BitVec.extractLsb'_eq_self.trans BitVec.and_allOnes.symm

/-- A word of F32J is put together from its fields (R74). -/
theorem encF32J_fields (hf : famField w = 0b111#3) : encF32J (opField w) (imm23Field w) = w &&& 0xFFFFFFFF := by
  have hfields : famField w ++ opField w ++ imm23Field w = w.extractLsb' 0 32 := by
    simp only [famField, opField, imm23Field, BitVec.extractLsb'_append_extractLsb'_eq_extractLsb']
  rw [encF32J, ← hf, hfields]
  exact BitVec.extractLsb'_eq_self.trans BitVec.and_allOnes.symm

/-- A word of F32C is put together from its fields, but for bits 22:0 (R75). -/
theorem encF32C_fields (hf : famField w = 0b111#3) : encF32C (opField w) = w &&& 0xFF800000 := by
  have hfields : famField w ++ opField w = w.extractLsb' 23 9 :=
    BitVec.extractLsb'_append_extractLsb'_eq_extractLsb' rfl
  rw [encF32C, ← hf, hfields]
  exact extractLsb'_append_zero (n := 9) (k := 23) w

end fields

/-- What the encoder and the decoder agree on in a row: a word of the row's family and opcode is the word of what it
decodes to, up to the ignored bits, and those bits do not influence what it decodes to. -/
structure RowExact (m : OpMap) (fam : Family) (r : Op × (Word → Instr)) : Prop where
  encodes : ∀ w, classify w = fam → opField w = r.1 → encode m (r.2 w) = w &&& keptBits (r.2 w)
  reads : ∀ w w', w' &&& keptBits (r.2 w) = w &&& keptBits (r.2 w) → r.2 w' = r.2 w

section formats
variable {m : OpMap} {op : Op}

theorem regRow_exact {c : RegIdx → RegIdx → RegIdx → Instr}
    (hc : ∀ ra rb rc, encode m (c ra rb rc) = encF24 op rc ra rb ∧ keptBits (c ra rb rc) = 0xFFFFFF00) :
    RowExact m .f24 (regRow op c) where
  encodes w hf hop := by
    obtain ⟨he, hk⟩ := hc (raField w) (rbField w) (rcField w)
    calc encode m (c (raField w) (rbField w) (rcField w))
      _ = encF24 (opField w) (rcField w) (raField w) (rbField w) := by rw [he, hop]; rfl
      _ = w &&& 0xFFFFFF00 := encF24_fields (famField_of_f24 hf)
      _ = w &&& keptBits (c (raField w) (rbField w) (rcField w)) := by rw [hk]
  reads w w' h := by
    have hk : keptBits ((regRow op c).2 w) = 0xFFFFFF00 := (hc _ _ _).2
    rw [hk] at h
    have ha : raField w' = raField w := extractLsb'_congr_of_and h rfl
    have hb : rbField w' = rbField w := extractLsb'_congr_of_and h rfl
    have hd : rcField w' = rcField w := extractLsb'_congr_of_and h rfl
    simp only [regRow, ha, hb, hd]

/-- A row that ignores no bit reads a word back from itself. -/
theorem reads_of_all_kept {f : Word → Instr} {w w' : Word} (hk : keptBits (f w) = 0xFFFFFFFF)
    (h : w' &&& keptBits (f w) = w &&& keptBits (f w)) : f w' = f w := by
  rw [hk] at h
  have hw : w' = w := BitVec.and_allOnes.symm.trans (h.trans BitVec.and_allOnes)
  rw [hw]

theorem immRow_exact {c : RegIdx → RegIdx → BitVec 13 → Instr}
    (hc : ∀ ra rb imm, encode m (c ra rb imm) = encF32I op rb ra imm ∧ keptBits (c ra rb imm) = 0xFFFFFFFF) :
    RowExact m .f32 (immRow op c) where
  encodes w hf hop := by
    obtain ⟨he, hk⟩ := hc (raField w) (rbField w) (imm13Field w)
    calc encode m (c (raField w) (rbField w) (imm13Field w))
      _ = encF32I (opField w) (rbField w) (raField w) (imm13Field w) := by rw [he, hop]; rfl
      _ = w &&& 0xFFFFFFFF := encF32I_fields (famField_of_f32 hf)
      _ = w &&& keptBits (c (raField w) (rbField w) (imm13Field w)) := by rw [hk]
  reads _ _ h := reads_of_all_kept (hc _ _ _).2 h

theorem jalRow_exact (m : OpMap) (form : JalForm) : RowExact m .f32 (jalRow (m.f32.jal form) form) where
  encodes w hf hop := by
    calc encode m (.jal form (imm23Field w))
      _ = encF32J (opField w) (imm23Field w) := by rw [encode, hop]; rfl
      _ = w &&& 0xFFFFFFFF := encF32J_fields (famField_of_f32 hf)
  reads _ _ h := reads_of_all_kept (by rfl) h

theorem ctlRow_exact {i : Instr} (hc : encode m i = encF32C op ∧ keptBits i = 0xFF800000) :
    RowExact m .f32 (ctlRow op i) where
  encodes w hf hop := by
    calc encode m i
      _ = encF32C (opField w) := by rw [hc.1, hop]; rfl
      _ = w &&& 0xFF800000 := encF32C_fields (famField_of_f32 hf)
      _ = w &&& keptBits i := by rw [hc.2]
  reads _ _ _ := rfl

end formats

/-- Every row is exact, by its format. -/
theorem familyRows_exact (m : OpMap) (fam : Family) : ∀ r ∈ familyRows m fam, RowExact m fam r := by
  cases fam with
  | f16 => exact List.forall_mem_nil _
  | f24 =>
    simp only [familyRows, List.forall_mem_cons]
    refine ⟨?add, ?sub, ?and, ?or, ?xor, List.forall_mem_nil _⟩
    all_goals exact regRow_exact fun _ _ _ => ⟨rfl, rfl⟩
  | f32 =>
    simp only [familyRows, List.forall_mem_cons]
    refine ⟨jalRow_exact m .a, jalRow_exact m .b, ?addi, ?andi, ?ori, ?xori, ?ld, ?sd, ?beq, ?bne, ?blt,
      ctlRow_exact ⟨rfl, rfl⟩, ctlRow_exact ⟨rfl, rfl⟩, ctlRow_exact ⟨rfl, rfl⟩, List.forall_mem_nil _⟩
    all_goals exact immRow_exact fun _ _ _ => ⟨rfl, rfl⟩

/-- A word that decodes to an instruction does so by an exact row of its family, and so does every word of that family
with the same opcode. -/
theorem decodeWord_row {m : OpMap} {w : Word} {i : Instr} (h : decodeWord m w = .instr i) :
    ∃ r, RowExact m (classify w) r ∧ opField w = r.1 ∧ r.2 w = i ∧
      ∀ w', classify w' = classify w → opField w' = opField w → decodeWord m w' = .instr (r.2 w') := by
  rw [decodeWord_eq_firstRow] at h
  rcases ite_eq_cases h with ⟨_, h⟩ | ⟨hfam, h⟩
  · cases h
  obtain ⟨r, hr, hop, hi, hall⟩ := firstRow_instr h
  refine ⟨r, familyRows_exact m _ r hr, hop, hi, fun w' hc ho => ?_⟩
  rw [decodeWord_eq_firstRow, hc, if_neg hfam, hall w' ho]

/-- A word that decodes to an instruction is the instruction's word, up to the ignored bits (R84). -/
theorem encode_of_decodeWord {m : OpMap} {w : Word} {i : Instr} (h : decodeWord m w = .instr i) :
    encode m i = w &&& keptBits i := by
  obtain ⟨r, hr, hop, rfl, _⟩ := decodeWord_row h
  exact hr.encodes w rfl hop

/-- The ignored bits do not influence what a word decodes to (R72, R75, R80). -/
theorem decodeWord_congr {m : OpMap} {w w' : Word} {i : Instr} (h : decodeWord m w = .instr i)
    (hw : w' &&& keptBits i = w &&& keptBits i) : decodeWord m w' = .instr i := by
  obtain ⟨r, hr, _, rfl, hall⟩ := decodeWord_row h
  rw [hall w' (classify_congr hw) (opField_congr hw), hr.reads w w' hw]

/-- Settles O4: `encode_of_decodeWord`, by the row the word decodes by. -/
theorem encodeOfDecodeIsWord : Obligations.EncodeOfDecodeIsWord := by
  unfold Obligations.EncodeOfDecodeIsWord
  exact fun _ _ _ => encode_of_decodeWord

/-! ### The fate of a fetched word (R80, R100) -/

/-- A word outside the two supported families is a decode error (R80). -/
theorem decodeWord_eq_decodeError (m : OpMap) {w : Word} (h24 : famField w ≠ 0b110#3) (h32 : famField w ≠ 0b111#3) :
    decodeWord m w = .decodeError := by
  have hc : classify w = .f16 := by rw [classify, if_neg h24, if_neg h32]
  rw [decodeWord_eq_firstRow, if_pos hc]

/-- An F24 word is dispatched by the F24 map (R103). -/
theorem decodeWord_eq_dispatch24 (m : OpMap) {w : Word} (h : famField w = 0b110#3) :
    decodeWord m w = dispatch24 m.f24 w := by
  simp only [decodeWord, classify_eq_f24 h]

/-- An F32 word is dispatched by the F32 map (R104). -/
theorem decodeWord_eq_dispatch32 (m : OpMap) {w : Word} (h : famField w = 0b111#3) :
    decodeWord m w = dispatch32 m.f32 w := by
  simp only [decodeWord, classify_eq_f32 h]

/-- A word whose opcode is in its family's map decodes to an instruction (R80). -/
theorem decodeWord_of_mapped {m : OpMap} {w : Word} (h : opField w ∈ familyValues m (classify w)) :
    ∃ i, decodeWord m w = .instr i := by
  have hfam : classify w ≠ .f16 := by
    intro hf
    rw [hf] at h
    cases h
  rw [decodeWord_eq_firstRow, if_neg hfam]
  exact firstRow_of_op_mem ((familyRows_ops_perm m _).mem_iff.2 h)

section step
variable {s : State} {w : Word}

/-- A step that runs an instruction is the instruction's meaning (R100). -/
theorem step_of_runs {i : Instr} (h : s.runs i) : step s = exec i s := by
  obtain ⟨hs, w, hf, hd⟩ := h
  simp only [step, State.engineStep, hs, State.cycle, hf, hd]

/-- A step that fetches a decode error raises it (R80). -/
theorem step_of_decodeError (hs : s.status = .running) (hf : s.fetch = .ok w)
    (hd : decodeWord s.cfg.ops w = .decodeError) : step s = .next (s.raise (.decodeError w)) := by
  simp only [step, State.engineStep, hs, State.cycle, hf, hd]

/-- A step that fetches an unmapped opcode raises it (R80). -/
theorem step_of_unknownOpcode (hs : s.status = .running) (hf : s.fetch = .ok w)
    (hd : decodeWord s.cfg.ops w = .unknownOpcode) : step s = .next (s.raise (.unknownOpcode w)) := by
  simp only [step, State.engineStep, hs, State.cycle, hf, hd]

end step

/-- Settles O5: the raises by what the word decodes to; a mapped word decodes (`decodeWord_of_mapped`), is its
instruction's word (`encode_of_decodeWord`), and its ignored bits do not matter (`decodeWord_congr`). -/
theorem everyWordHasOneFate : Obligations.EveryWordHasOneFate := by
  unfold Obligations.EveryWordHasOneFate
  refine fun s w hs hf => ⟨fun h24 h32 => ?_, fun h hop => ?_, fun h hop => ?_, fun h => ?_⟩
  · exact step_of_decodeError hs hf (decodeWord_eq_decodeError _ h24 h32)
  · exact step_of_unknownOpcode hs hf ((decodeWord_eq_dispatch24 _ h).trans (dispatch24_unknown.2 hop))
  · exact step_of_unknownOpcode hs hf ((decodeWord_eq_dispatch32 _ h).trans (dispatch32_unknown.2 hop))
  · have hmapped : opField w ∈ familyValues s.cfg.ops (classify w) := by
      rcases h with ⟨hfam, hop⟩ | ⟨hfam, hop⟩
      · rwa [classify_eq_f24 hfam]
      · rwa [classify_eq_f32 hfam]
    obtain ⟨i, hd⟩ := decodeWord_of_mapped hmapped
    exact ⟨i, hd, encode_of_decodeWord hd, step_of_runs ⟨hs, w, hf, hd⟩, fun _ => decodeWord_congr hd⟩

/-- Where the bytes at an address are those of a word, the word is read there (R43, R70). -/
theorem readWord_of_bytes {s : State} {addr : Dword} {w : Word}
    (h : [s.byteAt addr.toNat, s.byteAt (addr.toNat + 1), s.byteAt (addr.toNat + 2), s.byteAt (addr.toNat + 3)] =
      wordBytes w) : s.readWord addr = w := by
  simp only [wordBytes, List.cons.injEq, and_true] at h
  obtain ⟨h0, h1, h2, h3⟩ := h
  calc s.readWord addr
    _ = wordOfBytes (s.byteAt addr.toNat) (s.byteAt (addr.toNat + 1)) (s.byteAt (addr.toNat + 2))
          (s.byteAt (addr.toNat + 3)) := read_four s.mem addr.toNat
    _ = w := by rw [h0, h1, h2, h3, wordOfBytes_bytes]

/-- Settles O9: the word fetched is the instruction's (`readWord_of_bytes`) and decodes to it (`decodeWord_encode`). -/
theorem stepRunsEncodedInstruction : Obligations.StepRunsEncodedInstruction := by
  unfold Obligations.StepRunsEncodedInstruction
  intro s i hm hs ha hv hbytes
  refine step_of_runs ⟨hs, encode s.cfg.ops i, ?_, decodeWord_encode hm i⟩
  rw [fetch_eq_ok ha hv, readWord_of_bytes hbytes]

/-! ### The default maps, the table's words, the immediates (R76 to R78) -/

/-- Settles O1: the values are computed. -/
theorem defaultMapsInjective : Obligations.DefaultMapsInjective := by
  unfold Obligations.DefaultMapsInjective
  exact ⟨rfl, rfl, by decide⟩

/-- Settles O2: each word is decoded. -/
theorem sampleWordsDecode : Obligations.SampleWordsDecode := by
  unfold Obligations.SampleWordsDecode
  decide

/-- Settles O6: `decodeBytes_wordBytes`, with no bytes left over. -/
theorem tableWordDecodesAsWord : Obligations.TableWordDecodesAsWord := by
  unfold Obligations.TableWordDecodesAsWord
  intro nbits w i
  have hbytes := decodeBytes_wordBytes OpMap.default (tableWord nbits w) []
  rw [List.append_nil] at hbytes
  rw [decodeTableWord, hbytes]
  cases decodeWord OpMap.default (tableWord nbits w) <;> simp

/-- Settles O7: sign extension keeps the signed value, whose range is that of the field's width; the values shown are
computed. -/
theorem immediatesAreSigned : Obligations.ImmediatesAreSigned := by
  unfold Obligations.ImmediatesAreSigned
  refine ⟨fun imm => ⟨BitVec.toInt_signExtend_of_le (by decide), BitVec.le_toInt imm, ?_⟩,
    fun imm => ⟨BitVec.toInt_signExtend_of_le (by decide), BitVec.le_toInt imm, ?_⟩, by decide⟩
  · exact Int.le_of_lt_add_one BitVec.toInt_lt
  · exact Int.le_of_lt_add_one BitVec.toInt_lt

end Sys2Proof.Machine
end

section
/-! SUPPORT. The fetch unit, the step of a decoded instruction, and where an instruction leaves `pc` (spec R100, R101,
R105). -/

namespace Sys2Proof.Machine

/-! ### Fetch and the step (R100, R101) -/

/-- The alignment check comes first: a misaligned `pc` raises, valid or not (R101). -/
theorem fetch_eq_misalignedFetch {s : State} (ha : s.pc.toNat % 4 ≠ 0) : s.fetch = .error (.misalignedFetch s.pc) := by
  simp [State.fetch, fetchAlign, ha]

/-- Byte `i` of a word read, counted from the most significant, is the byte at `addr + i` (R43). -/
theorem extractLsb'_readWord (s : State) (addr : Dword) {i : Nat} (hi : i < 4) :
    (s.readWord addr).extractLsb' (8 * (4 - i - 1)) 8 = s.byteAt (addr.toNat + i) :=
  extractLsb'_read s.mem addr.toNat hi

/-- Settles O10: one equation of the fetch per outcome; the bytes of the word are `extractLsb'_readWord`. -/
theorem fetchUnit : Obligations.FetchUnit := by
  unfold Obligations.FetchUnit
  refine fun s => ⟨fetch_eq_misalignedFetch, fetch_eq_memoryFault,
    fun ha hv => ⟨s.readWord s.pc, fetch_eq_ok ha hv, ?_⟩⟩
  have hbyte {i : Nat} (hi : i < 4) := extractLsb'_readWord s s.pc hi
  exact ⟨hbyte (i := 0) (by decide), hbyte (i := 1) (by decide), hbyte (i := 2) (by decide),
    hbyte (i := 3) (by decide)⟩

/-- Settles O8: the word at `pc` is fetched (`fetch_eq_ok`), so the step runs what it decodes to (`step_of_runs`). -/
theorem stepRunsDecodedInstruction : Obligations.StepRunsDecodedInstruction := by
  unfold Obligations.StepRunsDecodedInstruction
  exact fun s _ hs ha hv hd => step_of_runs ⟨hs, s.readWord s.pc, fetch_eq_ok ha hv, hd⟩

/-! ### The instruction pointer after an instruction (R105) -/

/-- What has a target of its own is a control transfer. -/
theorem isTransfer_of_transferTarget {i : Instr} {s : State} {target : Dword}
    (h : transferTarget s i = some target) : isTransfer i = true := by
  cases i <;> simp only [transferTarget, reduceCtorEq] at h <;> rfl

/-- The default advance: no transfer, no HALT and no fault leaves `pc` 4 on. -/
theorem exec_pc_of_advance {i : Instr} {s t : State} (h : exec i s = .next t) (hi : isTransfer i = false)
    (hh : i ≠ .halt) (hf : ∀ c, t.status ≠ .faulted c) : t.pc = s.pc + 4 := by
  rcases exec_cases i s with ⟨_, _, _, he⟩ | ⟨_, ht, _⟩ | ⟨_, _, rfl, _⟩ | ⟨_, _, _, _, ⟨_, he⟩ | ⟨_, he⟩⟩ |
    ⟨_, _, _, _, ⟨_, he⟩ | ⟨_, he⟩⟩ | ⟨rfl, _⟩ | ⟨_, he⟩
  case inr.inl => exact absurd (isTransfer_of_transferTarget ht) (Bool.eq_false_iff.1 hi)
  case inr.inr.inl => cases hi
  case inr.inr.inr.inr.inr.inl => exact absurd rfl hh
  all_goals obtain rfl := Host.Outcome.next.inj (he.symm.trans h)
  case inr.inr.inr.inl.inr | inr.inr.inr.inr.inl.inr => exact absurd rfl (hf _)
  all_goals rfl

/-- A fault of a running engine's instruction leaves `pc` (R188). -/
theorem exec_pc_of_faulted {i : Instr} {s t : State} {c : FaultCause} (h : exec i s = .next t)
    (hs : s.status = .running) (hf : t.status = .faulted c) : t.pc = s.pc := by
  rcases exec_status h with hst | ⟨_, rfl⟩ | ⟨_, rfl⟩
  · cases hf.symm.trans (hst.trans hs)
  · cases hf
  · rfl

/-- A resume event moves a paused engine on, whatever value it carries (R166). -/
theorem resume_eq_next {s : State} (hs : s.status = .paused) (v : Dword) : s.resume v = .next s.resumed := if_pos hs

/-- HALT leaves `pc` to the `Resume` after it, which advances by 4 (R165, R166). -/
theorem exec_halt_pc {s t : State} (h : exec .halt s = .next t) :
    t.pc = s.pc ∧ ∀ v, ∃ u, t.resume v = .next u ∧ u.pc = s.pc + 4 := by
  obtain rfl := Host.Outcome.next.inj ((exec_halt s).symm.trans h)
  exact ⟨rfl, fun v => ⟨_, resume_eq_next rfl v, rfl⟩⟩

/-- A branch or JR leaves `pc` at its target, for a branch not taken the instruction after it. -/
theorem exec_pc_of_transferTarget {i : Instr} {s t : State} {target : Dword} (h : exec i s = .next t)
    (ht : transferTarget s i = some target) : t.pc = target := by
  obtain rfl := Host.Outcome.next.inj ((exec_transfer ht).symm.trans h)
  rfl

/-- Settles O34: the advance (`exec_pc_of_advance`), a fault (`exec_pc_of_faulted`), HALT (`exec_halt_pc`), and each
branch, whose target is the instruction after it when its condition fails. -/
theorem defaultAdvance : Obligations.DefaultAdvance := by
  unfold Obligations.DefaultAdvance
  refine fun i s t hs h => ⟨exec_pc_of_advance h, fun _ => exec_pc_of_faulted h hs, ?_, ?_, ?_, ?_⟩
  · rintro rfl
    exact exec_halt_pc h
  · rintro ra rb imm rfl hne
    exact exec_pc_of_transferTarget h (by rw [transferTarget, if_neg hne])
  · rintro ra rb imm rfl heq
    exact exec_pc_of_transferTarget h (by rw [transferTarget, if_neg (not_not.2 heq)])
  · rintro ra rb imm rfl hle
    exact exec_pc_of_transferTarget h (by rw [transferTarget, if_neg (Int.not_lt.2 hle)])

end Sys2Proof.Machine
end

section
/-! SUPPORT. The register-register instructions of the 24-bit family (spec R120 to R125). -/

namespace Sys2Proof.Machine

/-- An ALU instruction writes its result to its destination and advances, with everything else as before (R125). -/
theorem completesWriting_of_alu {i : Instr} {s : State} {r : RegIdx} {v : Dword} (h : aluResult s i = some (r, v)) :
    completesWriting i s r v :=
  completesWriting_of_exec (exec_alu h)

/-- The word the encoder builds for an instruction is its encoding: it decodes to it (`decodeWord_encode`). -/
theorem encodedAs_of_encode {w : OpMap → Word} {i : Instr} (h : ∀ m, encode m i = w m) : encodedAs w i :=
  fun m hm => ⟨h m, h m ▸ decodeWord_encode hm i⟩

/-- Settles O15: each meaning is its row of `aluResult` (`completesWriting_of_alu`), each encoding its row of `encode`
(`encodedAs_of_encode`), and the defaults are R77's. -/
theorem aluRegisterInstructions : Obligations.AluRegisterInstructions := by
  unfold Obligations.AluRegisterInstructions
  refine ⟨fun s ra rb rc => ?meaning, fun ra rb rc => ?encoding, ?defaults⟩
  case meaning =>
    exact ⟨completesWriting_of_alu rfl, completesWriting_of_alu rfl, completesWriting_of_alu rfl,
      completesWriting_of_alu rfl, completesWriting_of_alu rfl⟩
  case encoding =>
    exact ⟨encodedAs_of_encode fun _ => rfl, encodedAs_of_encode fun _ => rfl, encodedAs_of_encode fun _ => rfl,
      encodedAs_of_encode fun _ => rfl, encodedAs_of_encode fun _ => rfl⟩
  case defaults => rfl

end Sys2Proof.Machine
end

section
/-! SUPPORT. The register-immediate instructions of the 32-bit family (spec R130 to R133). -/

namespace Sys2Proof.Machine

/-- Settles O16: each meaning is its row of `aluResult` (`completesWriting_of_alu`), where `sext13` is the immediate's
sign extension; each encoding is its row of `encode` (`encodedAs_of_encode`), and the defaults are R78's. -/
theorem aluImmediateInstructions : Obligations.AluImmediateInstructions := by
  unfold Obligations.AluImmediateInstructions
  refine ⟨fun s ra rb imm => ?meaning, fun ra rb imm => ?encoding, ?defaults⟩
  case meaning =>
    exact ⟨completesWriting_of_alu rfl, completesWriting_of_alu rfl, completesWriting_of_alu rfl,
      completesWriting_of_alu rfl⟩
  case encoding =>
    exact ⟨encodedAs_of_encode fun _ => rfl, encodedAs_of_encode fun _ => rfl, encodedAs_of_encode fun _ => rfl,
      encodedAs_of_encode fun _ => rfl⟩
  case defaults => exact ⟨rfl, rfl, rfl, rfl⟩

end Sys2Proof.Machine
end

section
/-! SUPPORT. The effective address, and the instructions LD and SD (spec R140 to R142). -/

namespace Sys2Proof.Machine

/-! ### The effective address (R140) -/

/-- The effective address as the signed sum of base and displacement, modulo 2^64 (R140). -/
theorem toNat_effAddr (s : State) (ra : RegIdx) (imm : BitVec 13) :
    ((s.effAddr ra imm).toNat : Int) = (((s.reg ra).toNat : Int) + imm.toInt) % 2 ^ 64 := by
  obtain ⟨hsext, -⟩ := immediatesAreSigned.1 imm
  have hwrap : ((sext13 imm).toNat : Int) % 2 ^ 64 = imm.toInt % 2 ^ 64 := by
    rw [← hsext, BitVec.toInt_eq_toNat_bmod]
    exact Int.bmod_emod.symm
  calc ((s.effAddr ra imm).toNat : Int)
    _ = (((s.reg ra).toNat : Int) + ((sext13 imm).toNat : Int)) % 2 ^ 64 := by simp [State.effAddr]
    _ = (((s.reg ra).toNat : Int) + imm.toInt) % 2 ^ 64 := by
      rw [← Int.add_emod_emod, hwrap, Int.add_emod_emod]

/-- Settles O25: the sum is `toNat_effAddr`; from base 0 it is the displacement, whose range (`immediatesAreSigned`)
modulo 2^64 is the two ends of the address space. -/
theorem effectiveAddress : Obligations.EffectiveAddress := by
  unfold Obligations.EffectiveAddress
  refine fun s ra imm => ⟨toNat_effAddr s ra imm, ?_⟩
  rintro rfl
  have hea : ((s.effAddr 0 imm).toNat : Int) = imm.toInt % 2 ^ 64 := by simpa using toNat_effAddr s 0 imm
  obtain ⟨-, hlo, hhi⟩ := immediatesAreSigned.1 imm
  omega

/-! ### LD (R141) -/

/-- Settles O26: LD writes one register and advances (`completesWriting_of_exec`) when its access is valid
(`exec_ld_valid`), and raises when it is not (`exec_ld_invalid`); the encoding is its row of `encode`. -/
theorem loadDoubleword : Obligations.LoadDoubleword := by
  unfold Obligations.LoadDoubleword
  refine ⟨fun s ra rb imm => ⟨fun hv => ?completes, fun hv => ?faults⟩, fun ra rb imm => ?encoding, ?default⟩
  case completes => exact completesWriting_of_exec (exec_ld_valid hv)
  case faults => exact exec_ld_invalid hv
  case encoding => exact encodedAs_of_encode fun _ => rfl
  case default => rfl

/-! ### SD (R142) -/

/-- After a doubleword is stored, byte `i` from its address is byte `i` of the value, the most significant first
(R44, R142). -/
theorem byteAt_writeDword (s : State) (addr v : Dword) {i : Nat} (h : i < 8) :
    (s.writeDword addr v).byteAt (addr.toNat + i) = v.extractLsb' (8 * (7 - i)) 8 := by
  rw [show 7 - i = 8 - i - 1 by omega]
  exact byteAt_write s.mem addr.toNat (n := 8) v h

/-- The store of a doubleword reaches its eight bytes only (R44, R142). -/
theorem keepsBytesOutside_writeDword (s : State) (addr v : Dword) :
    keepsBytesOutside addr.toNat 8 s (s.writeDword addr v) :=
  fun _ ha => byteAt_write_outside ha

/-- Settles O27: SD writes the eight bytes and advances when its access is valid (`exec_sd_valid`), and raises when it
is not (`exec_sd_invalid`). The bytes are `byteAt_writeDword` and `keepsBytesOutside_writeDword`; nothing else is
touched by a write of memory and a move of `pc`. -/
theorem storeDoubleword : Obligations.StoreDoubleword := by
  unfold Obligations.StoreDoubleword
  refine ⟨fun s ra rb imm => ⟨fun hv => ?completes, fun hv => ?faults⟩, fun ra rb imm => ?encoding, ?default⟩
  case completes =>
    refine ⟨_, exec_sd_valid hv, fun i hi => byteAt_writeDword s _ _ hi, keepsBytesOutside_writeDword s _ _,
      ?regs, rfl, ?run, ?launch⟩
    case regs => exact fun _ => rfl
    case run => exact ⟨rfl, rfl, rfl⟩
    case launch => exact ⟨rfl, rfl⟩
  case faults => exact exec_sd_invalid hv
  case encoding => exact encodedAs_of_encode fun _ => rfl
  case default => rfl

end Sys2Proof.Machine
end

section
/-! SUPPORT. Control transfer: the branches, JAL and JR, the check of their targets by the next fetch, and the branch to
itself (spec R150 to R156, R216). -/

namespace Sys2Proof.Machine

/-! ### The branches (R150 to R153) -/

/-- A branch or JR goes to its target, for a branch not taken the instruction after it, with everything else as
before (R150, R155). -/
theorem completesGoing_of_transferTarget {i : Instr} {s : State} {target : Dword}
    (h : transferTarget s i = some target) : completesGoing i s target :=
  ⟨s.setPc target, exec_transfer h, rfl, fun _ => rfl, fun _ => rfl, ⟨rfl, rfl, rfl⟩, ⟨rfl, rfl⟩⟩

/-- Settles O30: each meaning is its row of `transferTarget` (`completesGoing_of_transferTarget`), where `sext13` is the
immediate's sign extension; each encoding is its row of `encode` (`encodedAs_of_encode`), and the defaults are R78's. -/
theorem branchInstructions : Obligations.BranchInstructions := by
  unfold Obligations.BranchInstructions
  refine ⟨fun s ra rb imm => ?meaning, fun ra rb imm => ?encoding, ?defaults⟩
  case meaning =>
    exact ⟨completesGoing_of_transferTarget rfl, completesGoing_of_transferTarget rfl,
      completesGoing_of_transferTarget rfl⟩
  case encoding =>
    exact ⟨encodedAs_of_encode fun _ => rfl, encodedAs_of_encode fun _ => rfl, encodedAs_of_encode fun _ => rfl⟩
  case defaults => exact ⟨rfl, rfl, rfl⟩

/-! ### JAL (R154) -/

/-- The link is in `x[31]` after a JAL, whatever its target (R154). -/
theorem reg_link_setPc (s : State) (v target : Dword) : ((s.setReg 31 v).setPc target).reg 31 = v := by
  simp

/-- Settles O31: both forms write the link and move `pc` (`exec_jal`); a write of `x[31]` reaches no other register
(`reg_setReg_ne`) and no other field. -/
theorem jumpAndLink : Obligations.JumpAndLink := by
  unfold Obligations.JumpAndLink
  refine ⟨fun s form imm => ?meaning, fun imm => ?encoding, ?defaults⟩
  case meaning =>
    refine ⟨_, exec_jal form imm s, reg_link_setPc s _ _, rfl, fun q hq => ?regs, fun a => ?bytes, ?run, ?launch⟩
    case regs => rw [setPc_reg, reg_setReg_ne s _ hq]
    case bytes => rw [byteAt_eq, byteAt_eq, setPc_mem, setReg_mem]
    case run => simp [keepsRun]
    case launch => simp [keepsLaunch]
  case encoding => exact ⟨encodedAs_of_encode fun _ => rfl, encodedAs_of_encode fun _ => rfl⟩
  case defaults => exact ⟨rfl, rfl⟩

/-! ### JR (R155) -/

/-- The mask of F32C clears bits 22:0 of a word and keeps its opcode (R75). -/
theorem encF32J_and_mask (op : Op) (low : BitVec 23) : encF32J op low &&& 0xFF800000 = encF32C op := by
  have hfields := encF32C_fields (famField_encF32J op low)
  rw [opField_encF32J] at hfields
  exact hfields.symm

/-- The word of an instruction without operands decodes to it whatever its bits 22:0 hold (R75). -/
theorem decodeWord_of_encF32C {m : OpMap} {i : Instr} {op : Op} (hm : m.wf) (he : encode m i = encF32C op)
    (hk : keptBits i = 0xFF800000) (low : BitVec 23) : decodeWord m (encF32J op low) = .instr i := by
  refine decodeWord_congr (decodeWord_encode hm i) ?_
  calc encF32J op low &&& keptBits i
    _ = encF32C op := by rw [hk, encF32J_and_mask]
    _ = encF32J op 0 &&& 0xFF800000 := (encF32J_and_mask op 0).symm
    _ = encode m i &&& keptBits i := by rw [he, hk]; rfl

/-- Settles O32: JR is its row of `transferTarget` (`completesGoing_of_transferTarget`), its encoding its row of
`encode`, and the ignored bits are `decodeWord_of_encF32C`. -/
theorem jumpRegister : Obligations.JumpRegister := by
  unfold Obligations.JumpRegister
  exact ⟨fun _ => completesGoing_of_transferTarget rfl, encodedAs_of_encode fun _ => rfl,
    fun _ low hm => decodeWord_of_encF32C hm rfl rfl low, rfl, rfl⟩

/-! ### The target is checked by the next fetch (R156) -/

/-- A transfer completes at every state and keeps the run status; if it is a JAL, it has written the link (R156). -/
theorem exec_of_isTransfer {i : Instr} (hi : isTransfer i = true) (s : State) :
    ∃ t, exec i s = .next t ∧ t.status = s.status ∧ ∀ form imm, i = .jal form imm → t.reg 31 = s.pc + 4 := by
  cases i with
  | beq | bne | blt | jr => exact ⟨_, exec_transfer rfl, rfl, fun _ _ h => by cases h⟩
  | jal form imm => exact ⟨_, exec_jal form imm s, setReg_status s 31 (s.pc + 4), fun _ _ _ => reg_link_setPc s _ _⟩
  | add | sub | and | or | xor | addi | andi | ori | xori | ld | sd | halt | syscall => cases hi

/-- Settles O33: the transfer completes (`exec_of_isTransfer`), and the next step is what its fetch makes of the new
`pc`, one equation of the fetch per case. -/
theorem targetsCheckedByNextFetch : Obligations.TargetsCheckedByNextFetch := by
  unfold Obligations.TargetsCheckedByNextFetch
  intro i s hi hs
  obtain ⟨t, ht, hst, hlink⟩ := exec_of_isTransfer hi s
  have hrun : t.status = .running := hst.trans hs
  exact ⟨t, ht, hrun, hlink, fun ha => step_of_fetch_error hrun (fetch_eq_misalignedFetch ha),
    fun ha hv => step_of_fetch_error hrun (fetch_eq_memoryFault ha hv), fetch_eq_ok⟩

/-! ### The branch to itself (R150, R216) -/

/-- A run goes on from where its first step leads. -/
theorem stepN_succ {s t : State} (h : step s = .next t) (k : Nat) : s.stepN (k + 1) = t.stepN k := by
  simp only [State.stepN, h]

/-- A run whose first step changes nothing stays where it is. -/
theorem stepN_of_step_self {s : State} (h : step s = .next s) (k : Nat) : s.stepN k = .next s := by
  induction k with
  | zero => rfl
  | succ k ih => rw [stepN_succ h, ih]

/-- A register is equal to itself and the displacement is 0, so the branch goes to its own address (R150). -/
theorem exec_beq_self (ra : RegIdx) (s : State) : exec (.beq ra ra 0) s = .next s := by
  have htarget : transferTarget s (.beq ra ra 0) = some s.pc := by simp [transferTarget, sext13]
  exact exec_transfer htarget

/-- Settles O36: the step is the branch (`step_of_runs`), which changes nothing (`exec_beq_self`), and so is every step
after it (`stepN_of_step_self`). -/
theorem branchToItselfNeverStops : Obligations.BranchToItselfNeverStops := by
  unfold Obligations.BranchToItselfNeverStops
  intro s ra hruns
  have hstep : step s = .next s := (step_of_runs hruns).trans (exec_beq_self ra s)
  exact ⟨hstep, fun k => ⟨s, stepN_of_step_self hstep k, hruns.1⟩⟩

end Sys2Proof.Machine
end

section
/-! SUPPORT. The control unit: the console output of a step, HALT, `Resume` and SYSCALL (spec R165 to R167). -/

namespace Sys2Proof.Machine

/-! ### The console output of a step (R9, R167) -/

/-- A step runs one instruction: the word at `pc` decodes to it. -/
theorem runs_unique {s : State} {i j : Instr} (hi : s.runs i) (hj : s.runs j) : i = j := by
  obtain ⟨_, w, hf, hd⟩ := hi
  obtain ⟨_, w', hf', hd'⟩ := hj
  obtain rfl := Except.ok.inj (hf.symm.trans hf')
  exact Decoded.instr.inj (hd.symm.trans hd')

/-- A fetch that raises gives no instruction to run (R101). -/
theorem not_runs_of_fetch_error {s : State} {cause : FaultCause} (hf : s.fetch = .error cause) (i : Instr) :
    ¬ s.runs i := by
  rintro ⟨_, w, hf', _⟩
  cases hf.symm.trans hf'

/-- A fetched word that decodes to no instruction gives none to run (R80). -/
theorem not_runs_of_decodeWord {s : State} {w : Word} (hf : s.fetch = .ok w)
    (hd : ∀ j, decodeWord s.cfg.ops w ≠ .instr j) (i : Instr) : ¬ s.runs i := by
  rintro ⟨_, w', hf', hd'⟩
  obtain rfl := Except.ok.inj (hf.symm.trans hf')
  exact hd i hd'

/-- An engine that waits for the host runs no instruction (R100, R210). -/
theorem not_runs_of_waiting {s : State} (hs : s.status = .notLoaded ∨ s.status = .paused) (i : Instr) :
    ¬ s.runs i := by
  rintro ⟨hrun, _⟩
  rcases hs with hs | hs <;> cases hs.symm.trans hrun

/-- No instruction but SYSCALL emits (R167). -/
theorem exec_console {i : Instr} {s t : State} (h : exec i s = .next t) (hi : i ≠ .syscall) :
    t.console = s.console := by
  rcases exec_cases i s with ⟨_, _, _, he⟩ | ⟨_, _, he⟩ | ⟨_, _, _, he⟩ | ⟨_, _, _, _, ⟨_, he⟩ | ⟨_, he⟩⟩ |
    ⟨_, _, _, _, ⟨_, he⟩ | ⟨_, he⟩⟩ | ⟨_, he⟩ | ⟨rfl, _⟩
  case inr.inr.inr.inr.inr.inr => exact absurd rfl hi
  all_goals
    obtain rfl := Host.Outcome.next.inj (he.symm.trans h)
    simp

/-- Waiting for the host emits nothing, whatever event is delivered. -/
theorem awaitHost_console {s t : State} (h : s.awaitHost = .next t) : t.console = s.console := by
  rcases awaitHost_next h with ⟨_, rfl⟩ | ⟨_, _, _, _, _, _, rfl⟩ | ⟨_, _, _, ⟨_, rfl⟩ | ⟨_, rfl⟩⟩ <;> rfl

/-- Settles O40: by what a step can do (`step_next`). It runs SYSCALL, or one other instruction (`runs_unique`), which
keeps the console (`exec_console`); a step that raises or waits runs no instruction and keeps it too. -/
theorem consoleOnlyBySyscall : Obligations.ConsoleOnlyBySyscall := by
  unfold Obligations.ConsoleOnlyBySyscall
  intro s t h
  rcases step_next h with ⟨i, hr, he⟩ | ⟨_, _, rfl, hf | ⟨w, hf, ⟨hd, _⟩ | ⟨hd, _⟩⟩⟩ | ⟨hs, hw⟩
  · by_cases hi : i = .syscall
    · subst hi
      obtain rfl := Host.Outcome.next.inj ((exec_syscall s).symm.trans he)
      exact .inl ⟨hr, rfl⟩
    · exact .inr ⟨fun hr' => hi (runs_unique hr hr'), exec_console he hi⟩
  · exact .inr ⟨not_runs_of_fetch_error hf _, rfl⟩
  · exact .inr ⟨not_runs_of_decodeWord hf (by simp [hd]) _, rfl⟩
  · exact .inr ⟨not_runs_of_decodeWord hf (by simp [hd]) _, rfl⟩
  · exact .inr ⟨not_runs_of_waiting hs _, awaitHost_console hw⟩

/-! ### HALT (R165) -/

/-- A paused engine's step waits for the host. -/
theorem step_of_paused {s : State} (hs : s.status = .paused) : step s = s.awaitHost := by
  simp only [step, State.engineStep, hs]

/-- A paused engine stays as it is while no event is queued (R165). -/
theorem step_of_paused_idle {s : State} (hs : s.status = .paused) (hi : s.inputs = []) : step s = .next s := by
  simp only [step_of_paused hs, State.awaitHost, hi]

/-- Settles O37: HALT is a pause (`exec_halt`), the paused engine stays (`step_of_paused_idle`, `stepN_of_step_self`),
and the ignored bits are `decodeWord_of_encF32C`. -/
theorem haltPauses : Obligations.HaltPauses := by
  unfold Obligations.HaltPauses
  refine ⟨fun s => ?meaning, encodedAs_of_encode fun _ => rfl,
    fun _ low hm => decodeWord_of_encF32C hm rfl rfl low, rfl, rfl⟩
  case meaning =>
    exact ⟨s.pause, exec_halt s, rfl, rfl, fun _ => rfl, fun _ => rfl, rfl, rfl, ⟨rfl, rfl⟩,
      fun hi => stepN_of_step_self (step_of_paused_idle rfl hi)⟩

/-! ### Resume (R166) -/

/-- A resume event leaves an engine that is not paused as it is (R166). -/
theorem resume_eq_self {s : State} (hs : s.status ≠ .paused) (v : Dword) : s.resume v = .next s := if_neg hs

/-- A paused engine's step delivers the resume event that is next in the queue. -/
theorem step_resume {s : State} {v : Dword} {rest : List HostEvent} (hs : s.status = .paused)
    (hi : s.inputs = .resume v :: rest) : step s = .next (s.expecting rest).resumed := by
  calc step s
    _ = s.awaitHost := step_of_paused hs
    _ = (s.expecting rest).resume v := by simp only [State.awaitHost, hi]; rfl
    _ = .next (s.expecting rest).resumed := resume_eq_next (s := s.expecting rest) hs v

/-- Settles O38: the event at a paused engine (`resume_eq_next`), at any other (`resume_eq_self`), and in the queue
(`step_resume`); `State.resume` does not look at the value. -/
theorem resumeContinues : Obligations.ResumeContinues := by
  unfold Obligations.ResumeContinues
  refine ⟨fun s v hs => ?paused, fun _ v hs => resume_eq_self hs v, fun _ _ _ => rfl,
    fun _ _ _ hs hi => step_resume hs hi⟩
  case paused =>
    exact ⟨s.resumed, resume_eq_next hs v, rfl, rfl, fun _ => rfl, fun _ => rfl, rfl, rfl, ⟨rfl, rfl⟩⟩

/-! ### SYSCALL (R167) -/

/-- Settles O39: SYSCALL emits and advances (`exec_syscall`), its encoding is its row of `encode`, and the ignored bits
are `decodeWord_of_encF32C`. -/
theorem syscallEmits : Obligations.SyscallEmits := by
  unfold Obligations.SyscallEmits
  refine ⟨fun s => ?meaning, encodedAs_of_encode fun _ => rfl,
    fun _ low hm => decodeWord_of_encF32C hm rfl rfl low, rfl, rfl⟩
  case meaning =>
    exact ⟨_, exec_syscall s, rfl, rfl, fun _ => rfl, fun _ => rfl, rfl, rfl, ⟨rfl, rfl⟩⟩

end Sys2Proof.Machine
end

section
/-! SUPPORT. Faults: what a step can do to the run status, the order and the precision of the faults, the terminal
status and the recovery from it, and what makes `pc` misaligned (spec R180 to R198, R210). -/

namespace Sys2Proof.Machine

/-! ### What raises a fault (R187, R188, R197) -/

/-- Every instruction answers a next state at every state (R104). -/
theorem exec_answers_next (i : Instr) (s : State) : ∃ t, exec i s = .next t := by
  rcases exec_cases i s with ⟨_, _, _, he⟩ | ⟨_, _, he⟩ | ⟨_, _, _, he⟩ | ⟨_, _, _, _, ⟨_, he⟩ | ⟨_, he⟩⟩ |
    ⟨_, _, _, _, ⟨_, he⟩ | ⟨_, he⟩⟩ | ⟨_, he⟩ | ⟨_, he⟩ <;>
  exact ⟨_, he⟩

/-- An instruction that faults an engine is an LD or an SD, and the cause names its access (R197). -/
theorem exec_faulted {i : Instr} {s t : State} {c : FaultCause} (h : exec i s = .next t)
    (hs : s.status ≠ .faulted c) (hc : t.status = .faulted c) :
    (∃ ra rb imm, i = .ld ra rb imm ∧ c = .memoryFault .load (s.effAddr ra imm)) ∨
    (∃ ra rb imm, i = .sd ra rb imm ∧ c = .memoryFault .store (s.effAddr ra imm)) := by
  rcases exec_cases i s with ⟨_, _, _, he⟩ | ⟨_, _, he⟩ | ⟨_, _, _, he⟩ | ⟨ra, rb, imm, hi, ⟨_, he⟩ | ⟨_, he⟩⟩ |
    ⟨ra, rb, imm, hi, ⟨_, he⟩ | ⟨_, he⟩⟩ | ⟨_, he⟩ | ⟨_, he⟩ <;>
  obtain rfl := Host.Outcome.next.inj (he.symm.trans h)
  case inr.inr.inr.inl.inr => exact .inl ⟨ra, rb, imm, hi, (RunStatus.faulted.inj hc).symm⟩
  case inr.inr.inr.inr.inl.inr => exact .inr ⟨ra, rb, imm, hi, (RunStatus.faulted.inj hc).symm⟩
  case inr.inr.inr.inr.inr.inl => cases hc
  all_goals exact absurd hc (by simpa using hs)

/-- Settles O45: `exec_answers_next` and `exec_faulted`. -/
theorem whatAnInstructionRaises : Obligations.WhatAnInstructionRaises := by
  unfold Obligations.WhatAnInstructionRaises
  intro i s hs
  obtain ⟨t, h⟩ := exec_answers_next i s
  exact ⟨t, h, fun c hc => exec_faulted h (hs c) hc⟩

/-- Settles O42: one equation of the step per place of the order: the fetch (`step_of_fetch_error`), the word
(`step_of_decodeError`, `step_of_unknownOpcode`), and the access of the instruction (`step_of_runs`). -/
theorem faultPriority : Obligations.FaultPriority := by
  unfold Obligations.FaultPriority
  refine fun s hs => ⟨fun ha => ?misaligned, fun ha hv => ?invalid, fun ha hv => ?fetched⟩
  case misaligned => exact step_of_fetch_error hs (fetch_eq_misalignedFetch ha)
  case invalid => exact step_of_fetch_error hs (fetch_eq_memoryFault ha hv)
  case fetched =>
    have hf : s.fetch = .ok (s.readWord s.pc) := fetch_eq_ok ha hv
    refine ⟨step_of_decodeError hs hf, step_of_unknownOpcode hs hf, fun ra rb imm hd hea => ?_,
      fun ra rb imm hd hea => ?_⟩
    · exact (step_of_runs ⟨hs, _, hf, hd⟩).trans (exec_ld_invalid hea)
    · exact (step_of_runs ⟨hs, _, hf, hd⟩).trans (exec_sd_invalid hea)

/-- A running engine's step leaves it running, or runs HALT and pauses (R165), or raises and does nothing else
(R188). -/
theorem step_of_running_cases {s t : State} (hs : s.status = .running) (h : step s = .next t) :
    t.status = .running ∨ (s.runs .halt ∧ t = s.pause) ∨ ∃ cause, t = s.raise cause := by
  rcases step_next h with ⟨i, hr, he⟩ | ⟨_, cause, ht, _⟩ | ⟨hn | hp, _⟩
  · rcases exec_status he with hst | ⟨rfl, ht⟩ | hraise
    · exact .inl (hst.trans hs)
    · exact .inr (.inl ⟨hr, ht⟩)
    · exact .inr (.inr hraise)
  · exact .inr (.inr ⟨cause, ht⟩)
  · cases hs.symm.trans hn
  · cases hs.symm.trans hp

/-- Settles O43: of the three ends of a running engine's step (`step_of_running_cases`) only a raise gives a fault. -/
theorem faultsArePrecise : Obligations.FaultsArePrecise := by
  unfold Obligations.FaultsArePrecise
  intro s t cause hs h hc
  rcases step_of_running_cases hs h with hrun | ⟨_, rfl⟩ | ⟨cause', rfl⟩
  · cases hrun.symm.trans hc
  · cases hc
  · obtain rfl := RunStatus.faulted.inj hc
    rfl

/-- Settles O46: the word read is 0 (`readWord_of_bytes`), which is in neither supported family. -/
theorem zeroWordIsDecodeError : Obligations.ZeroWordIsDecodeError := by
  unfold Obligations.ZeroWordIsDecodeError
  intro s hs ha hv hzero
  have hword : s.readWord s.pc = 0 := readWord_of_bytes (by
    rw [show s.byteAt s.pc.toNat = 0 from hzero 0 (by decide), hzero 1 (by decide), hzero 2 (by decide),
      hzero 3 (by decide)]
    decide)
  have hf : s.fetch = .ok 0 := hword ▸ fetch_eq_ok ha hv
  exact step_of_decodeError hs hf (decodeWord_eq_decodeError _ (by decide) (by decide))

/-! ### The pause (R190) -/

/-- What a paused engine's step answers: the same state, or the state after the resume that is next in the queue. -/
theorem step_of_paused_cases {s t : State} (hs : s.status = .paused) (h : step s = .next t) :
    (s.inputs = [] ∧ t = s) ∨ ∃ v rest, s.inputs = .resume v :: rest ∧ t = (s.expecting rest).resumed := by
  rw [step_of_paused hs] at h
  rcases awaitHost_next h with hidle | ⟨_, _, _, hn, _⟩ | ⟨v, rest, hi, ⟨_, ht⟩ | ⟨hp, _⟩⟩
  · exact .inl hidle
  · cases hs.symm.trans hn
  · exact .inr ⟨v, rest, hi, ht⟩
  · exact absurd hs hp

/-- No event pauses an engine (R190). -/
theorem awaitHost_status_ne_paused {s t : State} (h : s.awaitHost = .next t) (hs : s.status ≠ .paused) :
    t.status ≠ .paused := by
  rcases awaitHost_next h with ⟨_, rfl⟩ | ⟨_, _, _, _, _, _, rfl⟩ | ⟨_, _, _, ⟨hp, _⟩ | ⟨_, rfl⟩⟩
  · exact hs
  · simp
  · exact absurd hp hs
  · exact hs

/-- A step that pauses an engine runs HALT, whose only effect is the pause (R190). -/
theorem step_enters_paused {s t : State} (hs : s.status ≠ .paused) (h : step s = .next t) (ht : t.status = .paused) :
    s.runs .halt ∧ t = s.pause := by
  by_cases hrun : s.status = .running
  · rcases step_of_running_cases hrun h with hst | hpause | ⟨_, rfl⟩
    · cases hst.symm.trans ht
    · exact hpause
    · cases ht
  · rcases step_next h with ⟨_, ⟨hr, _⟩, _⟩ | ⟨hr, _⟩ | ⟨_, hw⟩
    · exact absurd hr hrun
    · exact absurd hr hrun
    · exact absurd ht (awaitHost_status_ne_paused hw hs)

/-- Settles O41: `step_enters_paused`, `step_of_paused_cases`, and a word of the 16-bit family decodes to the error. -/
theorem pausedOnlyByHalt : Obligations.PausedOnlyByHalt := by
  unfold Obligations.PausedOnlyByHalt
  refine ⟨fun s t => step_enters_paused, fun s t => step_of_paused_cases, fun s w hs hf hc => ?_⟩
  have hd : decodeWord s.cfg.ops w = .decodeError := by rw [decodeWord_eq_firstRow, if_pos hc]
  exact step_of_decodeError hs hf hd

/-! ### The terminal status and the recovery (R198, R210) -/

section faulted
variable {s : State} {cause : FaultCause} (hs : s.status = .faulted cause)
include hs

/-- A faulted engine takes no step (R198). -/
theorem step_of_faulted : step s = .fault (.terminated cause) := by
  simp only [step, State.engineStep, hs]

/-- A resume event has no effect on a faulted engine (R166, R198). -/
theorem resume_of_faulted (v : Dword) : s.deliver (.resume v) = .next s :=
  resume_eq_self (by rw [hs]; exact RunStatus.noConfusion) v

/-- A faulted engine takes no load (R210). -/
theorem load_of_faulted (image : List Byte) (t : State) : s.deliver (.load image) ≠ .next t := by
  intro h
  obtain ⟨hn, _⟩ := load_next h
  cases hs.symm.trans hn

/-- A faulted engine takes no reload (R210). -/
theorem reload_of_faulted (c : Config) (image : List Byte) (regs : Vector Dword 31) (stack : List Byte) (t : State) :
    s.reload c image regs stack ≠ .next t := by
  intro h
  obtain ⟨_, ⟨hn, _⟩ | ⟨hr | hp, _⟩⟩ := reload_next h
  · cases hs.symm.trans hn
  · cases hs.symm.trans hr
  · cases hs.symm.trans hp

/-- An event that a faulted engine answers leaves it as it is. -/
theorem deliver_of_faulted {e : HostEvent} {t : State} (h : s.deliver e = .next t) : t = s := by
  cases e with
  | load image => exact absurd h (load_of_faulted hs image t)
  | resume v => exact Host.Outcome.next.inj (h.symm.trans (resume_of_faulted hs v))

end faulted

/-- Settles O44: the step, the resume, the load and the reload of a faulted engine. -/
theorem faultedIsTerminal : Obligations.FaultedIsTerminal := by
  unfold Obligations.FaultedIsTerminal
  exact fun _ _ hs => ⟨step_of_faulted hs, resume_of_faulted hs, load_of_faulted hs, reload_of_faulted hs⟩

/-- Settles O58: a launch is the load into the constructed engine (`launch_eq_next`), so the registers and the stack are
as constructed, the image is as `byteAt_loaded_image` says, and the invariant is that of construction, kept by the
load. -/
theorem recoveryIsConstructionAndLoad : Obligations.RecoveryIsConstructionAndLoad := by
  unfold Obligations.RecoveryIsConstructionAndLoad
  refine ⟨fun c image hc hf => ?launch, fun s cause hs => ?faulted⟩
  case launch =>
    have hinv : ((State.construct c).loaded image).Inv := (State.Inv.construct hc).loadImage rfl hf
    exact ⟨_, launch_eq_next hf, hinv, rfl, rfl, rfl, fun i h => byteAt_loaded_image _ h,
      fun a ha => byteAt_loaded_stack hf ha, reg_zero _, construct_reg_sp c,
      fun r h0 hsp => construct_reg c h0 hsp, rfl⟩
  case faulted => exact ⟨fun _ _ => deliver_of_faulted hs, reload_of_faulted hs⟩

/-! ### What makes `pc` misaligned (R184) -/

/-- Where an instruction leaves `pc`: at itself, at the instruction after it, or at the target of a transfer. -/
theorem exec_pc_cases {i : Instr} {s t : State} (h : exec i s = .next t) :
    t.pc = s.pc ∨ t.pc = s.pc + 4 ∨ transferTarget s i = some t.pc ∨
      ∃ form imm, i = .jal form imm ∧ t.pc = s.pc + sext23 imm := by
  rcases exec_cases i s with ⟨_, _, _, he⟩ | ⟨_, htarget, he⟩ | ⟨form, imm, hi, he⟩ |
    ⟨_, _, _, _, ⟨_, he⟩ | ⟨_, he⟩⟩ | ⟨_, _, _, _, ⟨_, he⟩ | ⟨_, he⟩⟩ | ⟨_, he⟩ | ⟨_, he⟩ <;>
  obtain rfl := Host.Outcome.next.inj (he.symm.trans h)
  case inr.inl => exact .inr (.inr (.inl htarget))
  case inr.inr.inl => exact .inr (.inr (.inr ⟨form, imm, hi, rfl⟩))
  case inr.inr.inr.inl.inr | inr.inr.inr.inr.inl.inr | inr.inr.inr.inr.inr.inl => exact .inl rfl
  all_goals exact .inr (.inl rfl)

/-- A sum of addresses modulo 2^64 is the sum modulo 4. -/
theorem toNat_add_mod_four (x y : Dword) : (x + y).toNat % 4 = (x.toNat + y.toNat) % 4 := by
  rw [BitVec.toNat_add]
  exact Nat.mod_mod_of_dvd _ (by decide)

/-- Sign extension keeps the two low bits, so it keeps the value modulo 4. -/
theorem toNat_signExtend_mod_four {w : Nat} (hw : 2 ≤ w) (imm : BitVec w) :
    (imm.signExtend 64).toNat % 4 = imm.toNat % 4 := by
  have hlow : (imm.signExtend 64).setWidth 2 = imm.setWidth 2 := by
    apply BitVec.eq_of_getLsbD_eq
    intro i hi
    have hiw : i < w := by omega
    have hi64 : i < 64 := by omega
    simp [BitVec.getElem_signExtend, hi, hiw, hi64]
  simpa using congrArg BitVec.toNat hlow

section aligned
variable {s : State} (ha : s.pc.toNat % 4 = 0)
include ha

/-- The instruction after an aligned one is aligned. -/
theorem next_pc_aligned : (s.pc + 4).toNat % 4 = 0 := by
  rw [toNat_add_mod_four, Nat.add_mod, ha]
  rfl

/-- A displacement from an aligned `pc` is as misaligned as its target. -/
theorem displacement_misaligned {w : Nat} (hw : 2 ≤ w) {imm : BitVec w}
    (ht : (s.pc + imm.signExtend 64).toNat % 4 ≠ 0) : imm.toNat % 4 ≠ 0 := by
  rw [toNat_add_mod_four, Nat.add_mod, ha, toNat_signExtend_mod_four hw] at ht
  omega

/-- A branch from an aligned `pc` that leaves a misaligned one was taken, with a misaligned displacement. -/
theorem branch_misaligned {p : Prop} [Decidable p] {imm : BitVec 13} {target : Dword}
    (h : (if p then s.pc + sext13 imm else s.pc + 4) = target) (ht : target.toNat % 4 ≠ 0) :
    target = s.pc + sext13 imm ∧ imm.toNat % 4 ≠ 0 := by
  rcases ite_eq_cases h with ⟨_, rfl⟩ | ⟨_, rfl⟩
  · exact ⟨rfl, displacement_misaligned ha (by decide) ht⟩
  · exact absurd (next_pc_aligned ha) ht

/-- A branch or JR from an aligned `pc` with a misaligned target is a taken branch with a misaligned displacement, or a
JR with such a value in `x[31]`. -/
theorem transferTarget_misaligned {i : Instr} {target : Dword} (h : transferTarget s i = some target)
    (ht : target.toNat % 4 ≠ 0) :
    (∃ ra rb imm, (i = .beq ra rb imm ∨ i = .bne ra rb imm ∨ i = .blt ra rb imm) ∧
      target = s.pc + sext13 imm ∧ imm.toNat % 4 ≠ 0) ∨
    (i = .jr ∧ (s.reg 31).toNat % 4 ≠ 0) := by
  cases i with
  | beq ra rb imm => exact .inl ⟨ra, rb, imm, .inl rfl, branch_misaligned ha (Option.some.inj h) ht⟩
  | bne ra rb imm => exact .inl ⟨ra, rb, imm, .inr (.inl rfl), branch_misaligned ha (Option.some.inj h) ht⟩
  | blt ra rb imm => exact .inl ⟨ra, rb, imm, .inr (.inr rfl), branch_misaligned ha (Option.some.inj h) ht⟩
  | jr =>
    obtain rfl := Option.some.inj h
    exact .inr ⟨rfl, ht⟩
  | add | sub | and | or | xor | addi | andi | ori | xori | ld | sd | halt | syscall | jal => cases h

/-- A waiting engine's step keeps `pc` aligned: a load puts it at the aligned base, a resume moves it by 4 (R41). -/
theorem awaitHost_pc_aligned (hb : s.cfg.basesAligned) {t : State} (h : s.awaitHost = .next t) :
    t.pc.toNat % 4 = 0 := by
  rcases awaitHost_next h with ⟨_, rfl⟩ | ⟨_, _, _, _, _, _, rfl⟩ | ⟨_, _, _, ⟨_, rfl⟩ | ⟨_, rfl⟩⟩
  · exact ha
  · obtain ⟨hprog, _⟩ := hb
    simp only [loaded_pc]
    omega
  · exact next_pc_aligned ha
  · exact ha

end aligned

/-- Settles O35: an instruction leaves an aligned `pc` misaligned only at its target (`exec_pc_cases`), which is
`transferTarget_misaligned` or a JAL's; a raise keeps `pc`, and so does waiting its alignment
(`awaitHost_pc_aligned`). -/
theorem misalignedOnlyByTransfer : Obligations.MisalignedOnlyByTransfer := by
  unfold Obligations.MisalignedOnlyByTransfer
  intro s t hb ha h ht
  rcases step_next h with ⟨i, hr, he⟩ | ⟨_, _, rfl, _⟩ | ⟨_, hw⟩
  · rcases exec_pc_cases he with hpc | hpc | htarget | ⟨form, imm, rfl, hpc⟩
    · exact absurd ha (hpc ▸ ht)
    · exact absurd (next_pc_aligned ha) (hpc ▸ ht)
    · rcases transferTarget_misaligned ha htarget ht with ⟨ra, rb, imm, hi, htaken⟩ | ⟨rfl, hlink⟩
      · have hruns : s.runs (.beq ra rb imm) ∨ s.runs (.bne ra rb imm) ∨ s.runs (.blt ra rb imm) := by
          rcases hi with rfl | rfl | rfl <;> simp [hr]
        exact .inl ⟨ra, rb, imm, hruns, htaken⟩
      · exact .inr (.inr ⟨hr, hlink⟩)
    · exact .inr (.inl ⟨form, imm, hr, displacement_misaligned ha (by decide) (hpc ▸ ht)⟩)
  · exact absurd ha ht
  · exact absurd (awaitHost_pc_aligned ha hb hw) ht

end Sys2Proof.Machine
end

section
/-! SUPPORT. Reset, the loads and reloads, the partial word at the end of an image, the placing of a word, and how a run
ends (spec R33, R165, R198, R210 to R218). -/

namespace Sys2Proof.Machine

/-! ### Reset and the loads (R33, R210, R212, R215) -/

/-- Settles O47: `x[0]` and `x[29]` are as constructed (`reg_zero`, `construct_reg_sp`); the other values are
computed. -/
theorem resetState : Obligations.ResetState := by
  unfold Obligations.ResetState
  have hsp : State.reset.reg 29 = Config.default.spInit := construct_reg_sp Config.default
  exact ⟨reg_zero _, hsp, fun a => byteAt_nil a, rfl, rfl, rfl, rfl, by decide⟩

/-- Settles O49: a load that answers a next state found no program and an image that is not empty (`load_next`). -/
theorem refusedLoads : Obligations.RefusedLoads := by
  unfold Obligations.RefusedLoads
  refine ⟨fun s t h => ?_, fun s t image hs h => ?_⟩
  · obtain ⟨_, hne, _⟩ := load_next h
    exact hne rfl
  · obtain ⟨hn, _⟩ := load_next h
    exact hs hn

/-! ### The reload (R215) -/

/-- The new launch of a reload meets the invariant before its load: the bytes it starts with lie in the stack region,
whatever they are. -/
theorem State.Inv.relaunched {c : Config} (hc : c.wf) (s : State) (regs : Vector Dword 31) (stack : List Byte) :
    (s.relaunched c regs stack).Inv where
  params := hc
  canonical := writeList_wf (State.Inv.construct hc).canonical _ _
  placed cell hcell := by
    rcases mem_writeList hcell with hnil | ⟨hlo, hhi⟩
    · cases hnil
    · rw [List.length_take] at hhi
      exact .inr (inRegion_iff.2 ⟨hlo, by simp only [relaunched_cfg]; omega⟩)
  loaded hs := absurd rfl hs
  unloaded _ := rfl

/-- The stack bytes given to a reload stand at `STACK_BASE` after it, for the image's load leaves them alone. -/
theorem byteAt_reloaded_stack (s : State) {c : Config} {image stack : List Byte} (hf : c.fits image.length)
    (hl : stack.length = c.stackSize) (regs : Vector Dword 31) {i : Nat} (h : i < stack.length) :
    ((s.relaunched c regs stack).loaded image).byteAt (c.stackBase.toNat + i) = stack[i] := by
  have hst : (s.relaunched c regs stack).inStack (c.stackBase.toNat + i) 1 = true :=
    inRegion_iff.2 ⟨Nat.le_add_right _ _, by simp only [relaunched_cfg]; omega⟩
  rw [byteAt_loaded_stack hf hst, byteAt_eq, relaunched_mem, List.take_of_length_le hl.le]
  exact byteAt_writeList h

/-- Settles O57: a reload is the load into the new launch (`reload_eq_next`), whose invariant the load keeps
(`State.Inv.relaunched`, `State.Inv.loadImage`); before the load it is the load, and a faulted engine takes none
(`reload_of_faulted`). -/
theorem reloadIsNewLaunch : Obligations.ReloadIsNewLaunch := by
  unfold Obligations.ReloadIsNewLaunch
  refine fun s c image regs stack => ⟨fun hs hc hf hl => ?live, fun hs => ?first, fun cause t hs => ?faulted⟩
  case live =>
    have hinv : ((s.relaunched c regs stack).loaded image).Inv :=
      (State.Inv.relaunched hc s regs stack).loadImage rfl hf
    exact ⟨_, reload_eq_next hs hf regs stack, hinv, rfl, rfl, rfl, fun i h => byteAt_loaded_image _ h,
      fun i h => byteAt_reloaded_stack s hf hl regs h, reg_zero _, fun r h0 => reg_eq h0, rfl, rfl, rfl⟩
  case first => simp only [State.reload, hs]
  case faulted => exact reload_of_faulted hs c image regs stack t

/-! ### The partial word at the end of an image (R213) -/

/-- A fetch at the partial word is not valid: its four bytes begin in the program region, which does not meet the stack
region (R41), and end behind it. -/
theorem valid_partialWord {s : State} (hd : s.cfg.disjoint s.progSize) (hsize : s.progSize % 4 ≠ 0)
    (hpc : s.pc.toNat = s.cfg.progBase.toNat + 4 * (s.progSize / 4)) : s.valid s.pc 4 .fetch = false := by
  refine Bool.eq_false_iff.2 fun hv => ?_
  simp only [Config.disjoint] at hd
  rcases (valid_read_iff (by decide)).1 hv with hp | hst
  · have hprog := inRegion_iff.1 hp
    omega
  · have hstack := inRegion_iff.1 hst
    omega

/-- Settles O50: `pc` is aligned, for `PROG_BASE` is, and the fetch is not valid (`valid_partialWord`). -/
theorem partialWordFaults : Obligations.PartialWordFaults := by
  unfold Obligations.PartialWordFaults
  intro s hi hs hsize hpc
  obtain ⟨_, ⟨hbase, _⟩, _⟩ := hi.params
  obtain ⟨_, _, hd⟩ := hi.loaded (by simp [hs])
  have ha : s.pc.toNat % 4 = 0 := by omega
  exact step_of_fetch_error hs (fetch_eq_memoryFault ha (valid_partialWord hd hsize hpc))

/-! ### The placing of a word -/

section placeWord
variable (s : State) (w : Word)

@[simp] theorem placeWord_status : (s.placeWord w).status = .running := rfl
@[simp] theorem placeWord_cfg : (s.placeWord w).cfg = s.cfg := rfl
@[simp] theorem placeWord_reg (q : RegIdx) : (s.placeWord w).reg q = s.reg q := rfl

/-- The bytes of a placed word stand at the new `pc` (R70). -/
theorem byteAt_placeWord {i : Nat} (h : i < 4) :
    (s.placeWord w).byteAt ((s.placeWord w).pc.toNat + i) = (wordBytes w)[i]'h :=
  byteAt_writeList h

/-- The word read at `pc` after the placing is the word placed. -/
theorem readWord_placeWord : (s.placeWord w).readWord (s.placeWord w).pc = w := by
  refine readWord_of_bytes ?_
  rw [show (s.placeWord w).byteAt (s.placeWord w).pc.toNat = _ from byteAt_placeWord s w (i := 0) (by decide),
    byteAt_placeWord s w (i := 1) (by decide), byteAt_placeWord s w (i := 2) (by decide),
    byteAt_placeWord s w (i := 3) (by decide)]
  rfl

/-- Where a fetch at `pc` is valid, the placing moves neither `pc` nor the program region. -/
theorem placeWord_of_fetchable (ha : s.pc.toNat % 4 = 0) (hv : s.valid s.pc 4 .fetch = true) :
    (s.placeWord w).pc = s.pc ∧ (s.placeWord w).progSize = s.progSize :=
  ⟨if_pos ⟨ha, hv⟩, if_pos ⟨ha, hv⟩⟩

/-- Where it is not, the placing goes to `PROG_BASE` in a program region of at least 4 bytes. -/
theorem placeWord_of_not_fetchable (h : ¬ (s.pc.toNat % 4 = 0 ∧ s.valid s.pc 4 .fetch = true)) :
    (s.placeWord w).pc = s.cfg.progBase ∧ (s.placeWord w).progSize = max s.progSize 4 :=
  ⟨if_neg h, if_neg h⟩

/-- A fetch at the new `pc` is aligned and valid when the bases obey R41. -/
theorem placeWord_fetchable (hb : s.cfg.basesAligned) :
    (s.placeWord w).pc.toNat % 4 = 0 ∧ (s.placeWord w).valid (s.placeWord w).pc 4 .fetch = true := by
  by_cases h : s.pc.toNat % 4 = 0 ∧ s.valid s.pc 4 .fetch = true
  · obtain ⟨ha, hv⟩ := h
    obtain ⟨hpc, hsize⟩ := placeWord_of_fetchable s w ha hv
    rw [hpc]
    exact ⟨ha, (valid_congr (placeWord_cfg s w) hsize _ _ _).trans hv⟩
  · obtain ⟨hpc, hsize⟩ := placeWord_of_not_fetchable s w h
    obtain ⟨hbase, _⟩ := hb
    have hp : (s.placeWord w).inProg s.cfg.progBase.toNat 4 = true :=
      inRegion_iff.2 ⟨le_rfl, Nat.add_le_add_left (hsize ▸ le_max_right _ _) _⟩
    rw [hpc]
    exact ⟨by omega, (valid_read_iff (by decide)).2 (.inl hp)⟩

end placeWord

/-- Settles O11: the fetch after the placing is valid (`placeWord_fetchable`) and reads the word
(`readWord_placeWord`). -/
theorem placedWordIsFetched : Obligations.PlacedWordIsFetched := by
  unfold Obligations.PlacedWordIsFetched
  intro s nbits w hb
  have hfetch : (s.placeWord (tableWord nbits w)).fetch = .ok (tableWord nbits w) := by
    obtain ⟨ha, hv⟩ := placeWord_fetchable s (tableWord nbits w) hb
    rw [fetch_eq_ok ha hv, readWord_placeWord]
  exact ⟨placeWord_status s _, hfetch, placeWord_reg s _, placeWord_cfg s _⟩

/-! ### A running engine steps (R218) -/

/-- A running engine's step answers a next state: a raise of fetch or of decode, or an instruction's, which always
answers one (`exec_answers_next`). -/
theorem step_answers_of_running {s : State} (hs : s.status = .running) : ∃ t, step s = .next t := by
  rcases fetch_cases s with ⟨_, hf⟩ | ⟨_, _, hf⟩ | ⟨_, _, hf⟩
  · exact ⟨_, step_of_fetch_error hs hf⟩
  · exact ⟨_, step_of_fetch_error hs hf⟩
  · cases hd : decodeWord s.cfg.ops (s.readWord s.pc) with
    | instr i =>
      obtain ⟨t, ht⟩ := exec_answers_next i s
      exact ⟨t, (step_of_runs ⟨hs, _, hf, hd⟩).trans ht⟩
    | decodeError => exact ⟨_, step_of_decodeError hs hf hd⟩
    | unknownOpcode => exact ⟨_, step_of_unknownOpcode hs hf hd⟩

/-- Settles O54: `step_answers_of_running`, and of a paused engine `step_of_paused_cases` and `step_of_paused_idle`. -/
theorem runningEngineAlwaysSteps : Obligations.RunningEngineAlwaysSteps := by
  unfold Obligations.RunningEngineAlwaysSteps
  exact ⟨fun _ => step_answers_of_running, fun _ _ => step_of_paused_cases, fun _ => step_of_paused_idle⟩

/-! ### How a run without host events ends (R216) -/

/-- No instruction touches the host's queue. -/
theorem exec_inputs {i : Instr} {s t : State} (h : exec i s = .next t) : t.inputs = s.inputs := by
  rcases exec_cases i s with ⟨_, _, _, he⟩ | ⟨_, _, he⟩ | ⟨_, _, _, he⟩ | ⟨_, _, _, _, ⟨_, he⟩ | ⟨_, he⟩⟩ |
    ⟨_, _, _, _, ⟨_, he⟩ | ⟨_, he⟩⟩ | ⟨_, he⟩ | ⟨_, he⟩ <;>
  · obtain rfl := Host.Outcome.next.inj (he.symm.trans h)
    simp

/-- A running engine's step leaves the host's queue alone. -/
theorem step_inputs_of_running {s t : State} (hs : s.status = .running) (h : step s = .next t) :
    t.inputs = s.inputs := by
  rcases step_next h with ⟨_, _, he⟩ | ⟨_, _, rfl, _⟩ | ⟨hn | hp, _⟩
  · exact exec_inputs he
  · rfl
  · cases hs.symm.trans hn
  · cases hs.symm.trans hp

/-- A run of `k + n` steps is a run of `n` steps from where `k` steps lead. -/
theorem stepN_add {s t : State} {k : Nat} (h : s.stepN k = .next t) (n : Nat) : s.stepN (k + n) = t.stepN n := by
  induction k generalizing s with
  | zero =>
    obtain rfl := Host.Outcome.next.inj h
    rw [Nat.zero_add]
  | succ k ih =>
    cases hstep : step s with
    | next u =>
      rw [stepN_succ hstep] at h
      rw [Nat.succ_add, stepN_succ hstep, ih h]
    | fault _ => simp only [State.stepN, hstep, reduceCtorEq] at h
    | refused _ => simp only [State.stepN, hstep, reduceCtorEq] at h

/-- `k` steps from `s` lead to `t`, and the engine runs at every state before it. -/
def State.runsUntil (s : State) (k : Nat) (t : State) : Prop :=
  s.stepN k = .next t ∧ ∀ j < k, ∃ u, s.stepN j = .next u ∧ u.status = .running

/-- A running engine's step comes before what its run goes on with. -/
theorem State.runsUntil.cons {s u t : State} {k : Nat} (hs : s.status = .running) (h : step s = .next u)
    (hu : u.runsUntil k t) : s.runsUntil (k + 1) t := by
  obtain ⟨ht, hrun⟩ := hu
  refine ⟨(stepN_succ h k).trans ht, fun j hj => ?_⟩
  cases j with
  | zero => exact ⟨s, rfl, hs⟩
  | succ j =>
    rw [stepN_succ h]
    exact hrun j (by omega)

/-- A run that at some time is no longer running has a first state that is not, and that is a pause with the queue as it
was, or a fault: nothing else ends a running engine's step (`step_of_running_cases`). -/
theorem exists_runsUntil_stop {s : State} {n : Nat} (hs : s.status = .running)
    (hn : ¬ ∃ t, s.stepN n = .next t ∧ t.status = .running) :
    ∃ k t, s.runsUntil k t ∧ ((t.status = .paused ∧ t.inputs = s.inputs) ∨ ∃ cause, t.status = .faulted cause) := by
  induction n generalizing s with
  | zero => exact absurd ⟨s, rfl, hs⟩ hn
  | succ n ih =>
    obtain ⟨u, hstep⟩ := step_answers_of_running hs
    have hinputs := step_inputs_of_running hs hstep
    have hfirst : s.runsUntil 1 u := .cons hs hstep ⟨rfl, fun _ hj => absurd hj (Nat.not_lt_zero _)⟩
    rcases step_of_running_cases hs hstep with hu | ⟨_, rfl⟩ | ⟨cause, rfl⟩
    · rw [stepN_succ hstep] at hn
      obtain ⟨k, t, hrun, hend⟩ := ih hu hn
      exact ⟨k + 1, t, hrun.cons hs hstep, hinputs ▸ hend⟩
    · exact ⟨1, _, hfirst, .inl ⟨rfl, hinputs⟩⟩
    · exact ⟨1, _, hfirst, .inr ⟨cause, rfl⟩⟩

section stopped
variable {s t : State} {k : Nat} (h : s.runsUntil k t)
include h

/-- Before the state a run leads to, the engine has no status but `Running`. -/
theorem State.runsUntil.status_eq {j : Nat} {u : State} (hj : j < k) (hu : s.stepN j = .next u) :
    u.status = .running := by
  obtain ⟨u', hu', hrun⟩ := h.2 j hj
  rwa [Host.Outcome.next.inj (hu.symm.trans hu')]

/-- A run that leads to a pause with nothing queued stays in it (R165). -/
theorem State.runsUntil.stays_paused (hp : t.status = .paused) (hi : t.inputs = []) (n : Nat) :
    s.stepN (k + n) = .next t :=
  (stepN_add h.1 n).trans (stepN_of_step_self (step_of_paused_idle hp hi) n)

/-- The pause a run leads to is its first (R216). -/
theorem State.runsUntil.firstPause (hp : t.status = .paused) : s.firstPause k t :=
  ⟨h.1, hp, fun _ hj _ hu hpu => by cases (h.status_eq hj hu).symm.trans hpu⟩

/-- A run that leads to a pause with nothing queued never faults: it runs before the pause, and stays in it. -/
theorem State.runsUntil.faultFree (hp : t.status = .paused) (hi : t.inputs = []) : s.faultFree := by
  rintro j cause ⟨u, hu, hc⟩
  rcases Nat.lt_or_ge j k with hj | hj
  · cases (h.status_eq hj hu).symm.trans hc
  · obtain ⟨n, rfl⟩ := Nat.exists_eq_add_of_le hj
    obtain rfl := Host.Outcome.next.inj (hu.symm.trans (h.stays_paused hp hi n))
    cases hp.symm.trans hc

/-- From a fault no step is taken (R198). -/
theorem State.runsUntil.terminated {cause : FaultCause} (hc : t.status = .faulted cause) (n : Nat) :
    s.stepN (k + 1 + n) = .fault (.terminated cause) := by
  rw [Nat.add_assoc, Nat.add_comm 1 n, stepN_add h.1]
  simp only [State.stepN, step_of_faulted hc]

end stopped

/-- Settles O55: a run that does not go on forever has a first state that is not running (`exists_runsUntil_stop`); in
a pause it stays (`State.runsUntil.stays_paused`), from a fault it takes no step (`State.runsUntil.terminated`). -/
theorem runsEndByPauseOrFault : Obligations.RunsEndByPauseOrFault := by
  unfold Obligations.RunsEndByPauseOrFault
  intro s hs hi
  by_cases hnever : s.neverStops
  · exact .inl hnever
  · obtain ⟨n, hn⟩ := not_forall.1 hnever
    obtain ⟨k, t, hrun, ⟨hp, hq⟩ | ⟨cause, hc⟩⟩ := exists_runsUntil_stop hs hn
    · have hidle : t.inputs = [] := hq.trans hi
      exact .inr ⟨k, t, hrun.1, hrun.2, .inl ⟨hp, hrun.firstPause hp, hrun.faultFree hp hidle,
        hrun.stays_paused hp hidle⟩⟩
    · exact .inr ⟨k, t, hrun.1, hrun.2, .inr ⟨cause, hc, hrun.terminated hc⟩⟩

end Sys2Proof.Machine
end
